-- ==== Sys2Proof/Word.lean ====
section
/-! DEFINITION. The byte and the stream level (00_scope.md R11, 10_state.md R25). Cursors, lengths, capacities and hash slots are
unbounded naturals (00_scope.md R10, log 2). -/

namespace Sys2Proof

/-- A byte of IN or of OUT (00_scope.md R11). -/
abbrev Byte := BitVec 8

/-- The stream level, Level1 or Level2 (00_scope.md R2, 10_state.md R25). -/
inductive Level where
  | one
  | two
  deriving DecidableEq, Repr, Inhabited

/-- The number of a level: 1 or 2. -/
def Level.number : Level → Nat
  | .one => 1
  | .two => 2

end Sys2Proof
end

