-- ==== Sys2Proof/Config.lean ====
section
/-! DEFINITION. The parameters of 00_scope.md R8 to R10, and the free values the model leaves open. -/

namespace Sys2Proof.Config

/-- 00_scope.md R8. -/
def hashLog : Nat := 13

/-- The number of hash slots (00_scope.md R8, 10_state.md R29). -/
def hashSize : Nat := 8192

/-- The longest literal chunk (00_scope.md R8, 41_literal.md R130). -/
def maxCopy : Nat := 32

/-- A Level1 distance lies below it (00_scope.md R8, 40_match_finder.md R105). -/
def l1MaxDistance : Nat := 8192

/-- Level2 is near iff the biased distance lies below it (00_scope.md R8, 43_level2.md R172). -/
def l2NearBound : Nat := 8191

/-- A Level2 distance the encoder takes lies below it (00_scope.md R8, 40_match_finder.md R106). -/
def l2FarLimit : Nat := 73725

/-- Level1 iff the input is shorter (00_scope.md R8, 44_dispatcher.md R201). -/
def levelThreshold : Nat := 65536

/-- 00_scope.md R8: the length-field byte of a maximal Level1 token is `maxLen - 2 - 7 = 255`. -/
def maxLen : Nat := 264

/-- The most raw bytes one Level1 token covers (00_scope.md R8, 42_level1.md R153). -/
def l1MaxToken : Nat := 265

/-- The far-distance marker byte (00_scope.md R8, 30_encoding.md R79). -/
def farMarker : Byte := 255#8

/-- The continuation byte of an extended length (00_scope.md R8, 30_encoding.md R78). -/
def cont : Byte := 255#8

/-- 00_scope.md R8. -/
def lenBias : Nat := 3

/-- 00_scope.md R8. -/
def distBias : Nat := 1

/-- The shortest match the encoder emits (00_scope.md R9, 40_match_finder.md R108). -/
def minMatch : Nat := 4

/-- Which HASH a machine is built with (00_scope.md R10, 40_match_finder.md R100): the spec's default,
or any other, of which nothing is known (log 3). -/
inductive HashChoice where
  | standard
  | other (n : Nat)
  deriving DecidableEq, Repr

/-- A HASH other than the default: nothing is known of it (00_scope.md R10). -/
opaque otherHash : Nat → Level → Byte → Byte → Byte → Nat

/-- What the host can place in its address space (00_scope.md R10, 20_memory.md R58): the interface registers it writes or
reads (10_state.md R32 to R36), and the buffers, each over `size` addresses. PHASE is internal (R37). -/
inductive Placed where
  | cmd
  | inLen
  | outCap
  | status
  | outLen
  | inBuffer (size : Nat)
  | outBuffer (size : Nat)
  deriving DecidableEq, Repr

/-- IFACE_MAP, the placement of the registers and buffers in a host address space (00_scope.md R10): open (log 18). Each
entry is an address and what stands from it on. -/
abbrev IfaceMap := List (Nat × Placed)

/-- POS_BITS, the width of a cursor in an instance (00_scope.md R10): open. -/
opaque posBits : Nat

/-- MAX_IN_LEN, the largest input an instance accepts (00_scope.md R10): open. -/
opaque maxInLen : Nat

/-- Free value (log 9): what byte `i` of IN holds where nothing has written it. -/
opaque freeIn : (fill i : Nat) → Byte

/-- Free value (log 9): what byte `i` of OUT holds where nothing has written it. -/
opaque freeOut : (fill i : Nat) → Byte

/-- Free value (logs 10, 11): OUT_LEN where the spec leaves it unspecified (10_state.md R36, R41). -/
opaque freeOutLen : Nat → Nat

/-- Free value (log 10): ANCHOR at the start of DECOMPRESS (10_state.md R24). -/
opaque freeAnchor : Nat → Nat

/-- Free value (log 10): FIRST at the start of COMPRESS (10_state.md R26). -/
opaque freeFirst : Nat → Bool

/-- Free value (log 10): LEVEL before the command has written it (10_state.md R25). -/
opaque freeLevel : Nat → Level

end Sys2Proof.Config
end

