-- ==== Sys2Proof/Syntax.lean ====
section
/-! DEFINITION. The token kinds and the reserved level tags: one constructor per row of spec/opcode_table.json. -/

namespace Sys2Proof

/-- The "instruction set" of the core: the tokens of the compressed stream (00_scope.md R2, 30_encoding.md R72). -/
inductive Instr where
  /-- LIT0: the level tag and the first literal chunk (30_encoding.md R74). -/
  | lit0 (tag : BitVec 3) (data : List Byte)
  /-- LIT: a literal chunk (30_encoding.md R73). -/
  | lit (data : List Byte)
  /-- M1S: Level1 short match (30_encoding.md R75). -/
  | m1s (lc : BitVec 3) (dh : BitVec 5) (dl : Byte)
  /-- M1L: Level1 long match (30_encoding.md R76). -/
  | m1l (dh : BitVec 5) (e : Byte) (dl : Byte)
  /-- M2NS: Level2 near short match (30_encoding.md R77). -/
  | m2ns (lc : BitVec 3) (dh : BitVec 5) (dl : Byte)
  /-- M2NL: Level2 near long match; `conts` continuation bytes 255, then the terminator `last` (30_encoding.md R78). -/
  | m2nl (dh : BitVec 5) (conts : Nat) (last : Byte) (dl : Byte)
  /-- M2FS: Level2 far short match (30_encoding.md R79). -/
  | m2fs (lc : BitVec 3) (fh fl : Byte)
  /-- M2FL: Level2 far long match (30_encoding.md R80). -/
  | m2fl (conts : Nat) (last : Byte) (fh fl : Byte)
  /-- TAG_RSV_2_3: byte 0 with a level tag 2 or 3; `low` is its bits 4:0 (30_encoding.md R71, R85). -/
  | tagRsv23 (tag : BitVec 3) (low : BitVec 5)
  /-- TAG_RSV_4_7: byte 0 with a level tag 4 to 7; `low` is its bits 4:0 (30_encoding.md R71, R85). -/
  | tagRsv47 (tag : BitVec 3) (low : BitVec 5)
  deriving DecidableEq, Repr

end Sys2Proof
end

