-- ==== Sys2Proof/Machine/State.lean ====
section
/-! DEFINITION. The state of the core and its host, the reasons a step can stop, and the state after reset
(10_state.md, 70_reset_and_hazards.md R250). -/

namespace Sys2Proof.Machine

/-- CMD (10_state.md R32): `none` is its reset value 0. -/
inductive Command where
  | none
  | compress
  | decompress
  deriving DecidableEq, Repr

/-- STATUS.code (10_state.md R35, 60_exceptions.md R220). -/
inductive StatusCode where
  | ok
  | emptyInput
  | corruptStream
  | unknownLevel
  deriving DecidableEq, Repr

/-- PHASE (10_state.md R37). -/
inductive Phase where
  | idle
  | busy
  | done
  deriving DecidableEq, Repr

/-- Where in the running command's pseudocode the core stands (log 1): before the start block of
44_dispatcher.md R200 or R205, or in the loop after it. -/
inductive Seq where
  | start
  | body
  deriving DecidableEq, Repr

/-- A move of the host (60_exceptions.md R235, 70_reset_and_hazards.md R253, R254; log 4). -/
inductive HostOp where
  | writeIn (i : Nat) (b : Byte)
  | writeOut (i : Nat) (b : Byte)
  | writeInLen (n : Nat)
  | writeOutCap (n : Nat)
  | writeCmd (v : Nat)
  /-- A write of `v` at an address of the host's, to whatever IFACE_MAP places there (00_scope.md R10; log 18). -/
  | writeAt (address v : Nat)
  | reset
  /-- The host does nothing in this step: the core moves. -/
  | pass
  /-- The host polls STATUS.done until it reads 1; the core moves meanwhile. -/
  | waitDone
  deriving DecidableEq, Repr

/-- A hash slot that does not hold 0: its index and the position it holds. -/
abbrev Slot := Nat × Nat

/-- Everything the spec gives the machine (INVENTORY.md, State), and the model's own fields `seq`, `host`, `hash`,
`iface`, `inFill`, `outFill` and `draws`. -/
structure State where
  /-- CMD (10_state.md R32). -/
  cmd : Command
  /-- IN_LEN (10_state.md R33). -/
  inLen : Nat
  /-- OUT_CAP (10_state.md R34). -/
  outCap : Nat
  /-- STATUS.code (10_state.md R35); STATUS.done is computed from `phase` (log 15). -/
  code : StatusCode
  /-- OUT_LEN (10_state.md R36). -/
  outLen : Nat
  /-- PHASE (10_state.md R37). -/
  phase : Phase
  /-- IP, the program counter (10_state.md R22). -/
  ip : Nat
  /-- OP (10_state.md R23). -/
  op : Nat
  /-- ANCHOR (10_state.md R24). -/
  anchor : Nat
  /-- LEVEL (10_state.md R25). -/
  level : Level
  /-- FIRST (10_state.md R26). -/
  first : Bool
  /-- The bytes of IN that have been written, by index (20_memory.md R50). -/
  inMem : List Host.Cell
  /-- The bytes of OUT that have been written, by index (20_memory.md R50). -/
  outMem : List Host.Cell
  /-- The slots of HT that are set, by index (10_state.md R29). -/
  ht : List Slot
  /-- Which HASH the machine is built with (log 3). -/
  hash : Config.HashChoice
  /-- IFACE_MAP (00_scope.md R10; log 18). -/
  iface : Config.IfaceMap
  /-- Where the command's pseudocode stands (log 1). -/
  seq : Seq
  /-- The host's moves still to come, oldest first (log 4). -/
  host : List HostOp
  /-- The number of the free value that fills IN (log 9). -/
  inFill : Nat
  /-- The number of the free value that fills OUT (log 9). -/
  outFill : Nat
  /-- The number of the next free value (log 9). -/
  draws : Nat
  deriving DecidableEq, Repr

/-- Why the machine stops. Both reasons belong to states no run from reset reaches. -/
inductive Fault where
  /-- The core is BUSY with no command in CMD: raised by the sequencer. Safe: the spec starts a command only by a CMD
  write of 1 or 2 (10_state.md R32; log 16). -/
  | busyWithoutCommand
  /-- COMPRESS has written OUT at or past OUT_CAP, where there is no byte: raised by the scan step and the end step.
  Safe: 44_dispatcher.md R204 rules it out (log 17). -/
  | outOverrun
  deriving DecidableEq, Repr

/-- What the model gives no meaning to. -/
inductive Refusal where
  /-- Raised by an arm of exec whose instruction has no meaning yet. Safe. No arm raises it. -/
  | notModelled (mnemonic : String)
  /-- The host wrote CMD with a value other than 1 or 2 (10_state.md R32, 60_exceptions.md R235): raised by the CMD
  write. Safe. -/
  | badCommand
  /-- The host wrote CMD while BUSY (10_state.md R37, 60_exceptions.md R235): raised by the CMD write. Safe. -/
  | commandWhileBusy
  /-- COMPRESS with OUT_CAP below 2·IN_LEN (60_exceptions.md R237): raised by the CMD write. Safe. -/
  | compressOutCapTooSmall
  /-- The host wrote IN, OUT, IN_LEN or OUT_CAP while BUSY (20_memory.md R61, 60_exceptions.md R235; log 5): raised by
  those writes. Safe. -/
  | hostWriteWhileBusy
  /-- The host wrote an address at which IFACE_MAP places nothing, or more than one thing (00_scope.md R10; log 18): raised by
  writeAt. Safe. -/
  | nothingPlaced
  /-- The host wrote STATUS or OUT_LEN, which are read-only to it (10_state.md R35, R36; log 18): raised by writeAt. Safe. -/
  | readOnlyRegister
  /-- The host wrote more than a byte where a byte of IN or OUT is placed (20_memory.md R57; log 18): raised by writeAt.
  Safe. -/
  | notAByte
  deriving DecidableEq, Repr

/-- What a step answers. -/
abbrev Answer := Host.Outcome State Fault Refusal

/-- The machine right after reset (10_state.md R41, 70_reset_and_hazards.md R250): PHASE, STATUS and CMD as the spec
says; every other value is the model's (logs 1, 3, 4, 7, 8, 9, 18). -/
def State.reset : State where
  cmd := .none
  inLen := 0
  outCap := 0
  code := .ok
  outLen := 0
  phase := .idle
  ip := 0
  op := 0
  anchor := 0
  level := .one
  first := false
  inMem := []
  outMem := []
  ht := []
  hash := .standard
  iface := []
  seq := .start
  host := []
  inFill := 0
  outFill := 0
  draws := 1

end Sys2Proof.Machine
end

