-- ==== Sys2Proof/Machine/Ops.lean ====
section
/-! DEFINITION. The named operations over the three memories and the registers, and the end of a command, with an
error or without (20_memory.md, 60_exceptions.md R224). -/

namespace Sys2Proof.Machine

/-! A memory is a list of index and value, indices strictly rising; an index that is not listed holds no written
value. -/

/-- The canonical form: indices strictly rising. -/
abbrev Memory.wf {α : Type} (m : List (Nat × α)) : Prop := (m.map Prod.fst).Pairwise (· < ·)

/-- What was last written at an index, if anything was. -/
def Memory.read {α : Type} : List (Nat × α) → Nat → Option α
  | [], _ => none
  | (b, v) :: m, a => if a = b then some v else Memory.read m a

/-- Write one index (20_memory.md R57). -/
def Memory.write {α : Type} : List (Nat × α) → Nat → α → List (Nat × α)
  | [], a, v => [(a, v)]
  | (b, w) :: m, a, v =>
    if a < b then (a, v) :: (b, w) :: m
    else if a = b then (a, v) :: m
    else (b, w) :: Memory.write m a v

/-- Take an index off the list. -/
def Memory.erase {α : Type} (m : List (Nat × α)) (a : Nat) : List (Nat × α) := m.filter fun e => e.1 != a

/-- Write a sequence of values at ascending indices (20_memory.md R57). -/
def Memory.writeAll {α : Type} (m : List (Nat × α)) (a : Nat) : List α → List (Nat × α)
  | [] => m
  | v :: vs => Memory.writeAll (Memory.write m a v) (a + 1) vs

/-- Copy `n` indices from `src` to `dst`, ascending, one at a time, each read seeing the writes before it
(42_level1.md R157, 70_reset_and_hazards.md R255). `fill` is what an unwritten index holds. -/
def Memory.copy {α : Type} (fill : Nat → α) (m : List (Nat × α)) (src dst : Nat) : Nat → List (Nat × α)
  | 0 => m
  | n + 1 => Memory.copy fill (Memory.write m dst ((Memory.read m src).getD (fill src))) (src + 1) (dst + 1) n

/-- `IN[i]` (00_scope.md R12). A byte nothing has written is a free value (log 9). -/
def readIn (s : State) (i : Nat) : Byte := (Memory.read s.inMem i).getD (Config.freeIn s.inFill i)

/-- `OUT[i]` (00_scope.md R12). A byte nothing has written is a free value (log 9). -/
def readOut (s : State) (i : Nat) : Byte := (Memory.read s.outMem i).getD (Config.freeOut s.outFill i)

/-- `OUT[i] <- b` (00_scope.md R12). -/
def writeOut (s : State) (i : Nat) (b : Byte) : State := { s with outMem := Memory.write s.outMem i b }

/-- `emit` of each byte in turn: `OUT[OP] <- b; OP <- OP + 1` (00_scope.md R12). -/
def emitBytes (bs : List Byte) (s : State) : State :=
  { s with outMem := Memory.writeAll s.outMem s.op bs, op := s.op + bs.length }

/-- `IN[a..a+n)` (00_scope.md R12). -/
def inBytes (s : State) (a : Nat) : Nat → List Byte
  | 0 => []
  | n + 1 => readIn s a :: inBytes s (a + 1) n

/-- `OUT[a..a+n)`. -/
def outBytes (s : State) (a : Nat) : Nat → List Byte
  | 0 => []
  | n + 1 => readOut s a :: outBytes s (a + 1) n

/-- `HT[h]`: 0 where the slot is unset (10_state.md R29, 20_memory.md R60). -/
def readSlot (s : State) (h : Nat) : Nat := (Memory.read s.ht h).getD 0

/-- `HT[h] <- v`: a slot that holds 0 is not listed. -/
def writeSlot (s : State) (h : Nat) (v : Nat) : State :=
  { s with ht := if v = 0 then Memory.erase s.ht h else Memory.write s.ht h v }

/-- The canonical form of HT: indices rising, below 8192, no listed slot holding 0. -/
abbrev slotsWf (m : List Slot) : Prop :=
  Memory.wf m ∧ ∀ e ∈ m, e.1 < Config.hashSize ∧ e.2 ≠ 0

/-- OUT holds nothing known: its bytes are the next free value (10_state.md R41, 60_exceptions.md R224). -/
def forgetOut (s : State) : State :=
  { s with outMem := [], outFill := s.draws, outLen := Config.freeOutLen s.draws, draws := s.draws + 1 }

/-- The error kinds (60_exceptions.md R220). -/
inductive ErrorKind where
  | emptyInput
  | corruptStream
  | unknownLevel
  deriving DecidableEq, Repr

/-- The code of an error kind (60_exceptions.md R220). -/
def errorCode : ErrorKind → StatusCode
  | .emptyInput => .emptyInput
  | .corruptStream => .corruptStream
  | .unknownLevel => .unknownLevel

/-- `raise E`: the end of a command on error (60_exceptions.md R224). OUT and OUT_LEN are unspecified
(R225; log 11). The spec has no handler and no return (R229): the next CMD write starts afresh. -/
def raise (e : ErrorKind) (s : State) : Answer :=
  .next { forgetOut s with code := errorCode e, phase := .done }

/-- The end of a command that succeeds (40_match_finder.md R114, 44_dispatcher.md R207). -/
def succeed (s : State) : State := { s with outLen := s.op, code := .ok, phase := .done }

/-- COMPRESS has no byte of OUT at or past OUT_CAP to write (20_memory.md R50, R55; log 17). -/
def withinOut (s : State) : Answer := if s.outCap < s.op then .fault .outOverrun else .next s

end Sys2Proof.Machine
end

