-- ==== Sys2Proof/Machine/Operands.lean ====
section
/-! DEFINITION. Every operand form of the tokens: lengths, distances, and the checked reads of a token's bytes
(30_encoding.md R81, R82, R87). -/

namespace Sys2Proof.Machine

/-- The biased length of a short match (30_encoding.md R81). -/
def shortLen (lc : BitVec 3) : Nat := lc.toNat

/-- The biased length of M1L (42_level1.md R156). -/
def extendedLen (e : Byte) : Nat := 7 + e.toNat

/-- The biased length of M2NL and M2FL: 7 plus the sum of the length bytes (30_encoding.md R81, 43_level2.md R184).
It never wraps (log 23). -/
def longLen (conts : Nat) (last : Byte) : Nat := 7 + (255 * conts + last.toNat)

/-- The raw match length of a biased length (30_encoding.md R81). -/
def rawLen (len : Nat) : Nat := len + Config.lenBias

/-- The 13-bit biased distance `(dh << 8) | dl` (30_encoding.md R82). -/
def nearDist (dh : BitVec 5) (dl : Byte) : Nat := dh.toNat * 256 + dl.toNat

/-- The far field `(fh << 8) | fl`, big-endian (20_memory.md R54, 30_encoding.md R82). -/
def farField (fh fl : Byte) : Nat := fh.toNat * 256 + fl.toNat

/-- The biased distance of a far match (30_encoding.md R82). -/
def farDist (fh fl : Byte) : Nat := Config.l2NearBound + farField fh fl

/-- The checked reads of a token's bytes. Each entry of `groups` is a number of bytes asked for at once: if they are
not all inside IN the token raises CorruptStream with IP where it stands (20_memory.md R55, 60_exceptions.md R222,
R226; log 12). -/
def takeBytes (groups : List Nat) (s : State) (k : State → Answer) : Answer :=
  match groups with
  | [] => k s
  | n :: rest =>
    if s.inLen < s.ip + n then raise .corruptStream s
    else takeBytes rest { s with ip := s.ip + n } k

/-- The rest of a literal chunk once its control byte has been read: both checks, then the copy
(41_literal.md R133). -/
def chunkCopy (data : List Byte) (s : State) : Answer :=
  if s.inLen < s.ip + data.length then raise .corruptStream s
  else if s.outCap < s.op + data.length then raise .corruptStream s
  else .next (emitBytes data { s with ip := s.ip + data.length })

/-- MATCH_COPY (42_level1.md R157). `REF < 0` is `OP < dist + 1`. The byte-fill case (43_level2.md R185) is `dist = 0`. -/
def matchCopy (dist L : Nat) (s : State) : Answer :=
  if s.op < dist + 1 then raise .corruptStream s
  else if s.outCap < s.op + L then raise .corruptStream s
  else .next { s with
    outMem := Memory.copy (Config.freeOut s.outFill) s.outMem (s.op - (dist + 1)) s.op L
    op := s.op + L }

end Sys2Proof.Machine
end

