-- ==== Sys2Proof/Machine/Level1.lean ====
section
/-! DEFINITION. The Level1 match codec: M1S and M1L, and EMIT_M1 (42_level1.md). -/

namespace Sys2Proof.Machine

/-- M1S (42_level1.md R155). -/
def execM1S (lc : BitVec 3) (dh : BitVec 5) (dl : Byte) (s : State) : Answer :=
  takeBytes [1, 1] s (matchCopy (nearDist dh dl) (rawLen (shortLen lc)))

/-- M1L (42_level1.md R156). -/
def execM1L (dh : BitVec 5) (e : Byte) (dl : Byte) (s : State) : Answer :=
  takeBytes [1, 1, 1] s (matchCopy (nearDist dh dl) (rawLen (extendedLen e)))

/-- EMIT_M1_ONE (42_level1.md R152): the bytes of one token. -/
def emitM1One (dist L : Nat) : List Byte :=
  let len := L - Config.lenBias
  BitVec.ofNat 8 (min len 7 * 32 + dist / 256)
    :: ((if 7 ≤ len then [BitVec.ofNat 8 (len - 7)] else []) ++ [BitVec.ofNat 8 (dist % 256)])

/-- How many maximal tokens the split of EMIT_M1 makes (42_level1.md R151, R153). -/
def fullTokens (L : Nat) : Nat := (L - 1) / Config.l1MaxToken

/-- The remainder the split leaves, 1 to 265 (42_level1.md R154). -/
def splitRest (L : Nat) : Nat := L - Config.l1MaxToken * fullTokens L

/-- The bytes EMIT_M1 emits (42_level1.md R151). -/
def emitM1 (distance L : Nat) : List Byte :=
  let dist := distance - Config.distBias
  (List.replicate (fullTokens L)
      [BitVec.ofNat 8 (0xE0 + dist / 256), 255#8, BitVec.ofNat 8 (dist % 256)]).flatten
    ++ (if Config.minMatch ≤ splitRest L then emitM1One dist (splitRest L) else [])

/-- `C`, the input bytes EMIT_M1's tokens cover (42_level1.md R151, R154). -/
def coveredM1 (L : Nat) : Nat :=
  if Config.minMatch ≤ splitRest L then L else Config.l1MaxToken * fullTokens L

end Sys2Proof.Machine
end

