-- ==== Sys2Proof/Machine/Level2.lean ====
section
/-! DEFINITION. The Level2 match codec: M2NS, M2NL, M2FS and M2FL, and EMIT_M2 (43_level2.md). -/

namespace Sys2Proof.Machine

/-- M2NS (43_level2.md R180). -/
def execM2NS (lc : BitVec 3) (dh : BitVec 5) (dl : Byte) (s : State) : Answer :=
  takeBytes [1, 1] s (matchCopy (nearDist dh dl) (rawLen (shortLen lc)))

/-- M2NL (43_level2.md R181): the control byte, the `conts + 1` length bytes one by one, the low byte. -/
def execM2NL (dh : BitVec 5) (conts : Nat) (last : Byte) (dl : Byte) (s : State) : Answer :=
  takeBytes (1 :: (List.replicate (conts + 1) 1 ++ [1])) s (matchCopy (nearDist dh dl) (rawLen (longLen conts last)))

/-- M2FS (43_level2.md R182): the control byte, the marker, then the two far bytes at once. -/
def execM2FS (lc : BitVec 3) (fh fl : Byte) (s : State) : Answer :=
  takeBytes [1, 1, 2] s (matchCopy (farDist fh fl) (rawLen (shortLen lc)))

/-- M2FL (43_level2.md R183). -/
def execM2FL (conts : Nat) (last : Byte) (fh fl : Byte) (s : State) : Answer :=
  takeBytes (1 :: (List.replicate (conts + 1) 1 ++ [1, 2])) s (matchCopy (farDist fh fl) (rawLen (longLen conts last)))

/-- LENBYTES (43_level2.md R174): `(len - 7) / 255` continuation bytes and the terminator. -/
def lenBytes (len : Nat) : List Byte :=
  List.replicate ((len - 7) / 255) Config.cont ++ [BitVec.ofNat 8 ((len - 7) % 255)]

/-- The length field of EMIT_M2 above the low bits `low`: the control byte, then the length bytes if `len ≥ 7`
(43_level2.md R173). -/
def lengthPart (len low : Nat) : List Byte :=
  if len < 7 then [BitVec.ofNat 8 (len * 32 + low)] else BitVec.ofNat 8 (0xE0 + low) :: lenBytes len

/-- The bytes EMIT_M2 emits; they cover `L` input bytes (43_level2.md R173). -/
def emitM2 (distance L : Nat) : List Byte :=
  let len := L - Config.lenBias
  let dist := distance - Config.distBias
  if dist < Config.l2NearBound then
    lengthPart len (dist / 256) ++ [BitVec.ofNat 8 (dist % 256)]
  else
    let f := dist - Config.l2NearBound
    lengthPart len 31 ++ [Config.farMarker, BitVec.ofNat 8 (f / 256), BitVec.ofNat 8 (f % 256)]

end Sys2Proof.Machine
end

