-- ==== Sys2Proof/Machine/Flags.lean ====
section
/-! DEFINITION. The flags of the core: FIRST and the STATUS register; there are no condition codes
(10_state.md R26, R28, R35). -/

namespace Sys2Proof.Machine

/-- `FIRST <- 0`, by the first token (41_literal.md R134). -/
def clearFirst (s : State) : State := { s with first := false }

/-- STATUS.code as a number (60_exceptions.md R220). -/
def codeNumber : StatusCode → Nat
  | .ok => 0
  | .emptyInput => 1
  | .corruptStream => 2
  | .unknownLevel => 3

/-- STATUS.done (10_state.md R35, R37; log 15). -/
def statusDone (s : State) : Bool := s.phase == .done

/-- STATUS as the host reads it: code in bits 1:0, done in bit 2, 0 above (10_state.md R35). -/
def statusWord (s : State) : Nat := codeNumber s.code + (if statusDone s then 4 else 0)

/-- The result of a command, all or nothing: the bytes `OUT[0..OUT_LEN)` after one that succeeded
(60_exceptions.md R225, R235). -/
def result? (s : State) : Option (List Byte) :=
  if statusDone s && s.code == .ok then some (outBytes s 0 s.outLen) else none

end Sys2Proof.Machine
end

