-- ==== Sys2Proof/Machine/Literal.lean ====
section
/-! DEFINITION. The literal codec: LIT0 and LIT, and EMIT_LITERALS (41_literal.md). -/

namespace Sys2Proof.Machine

/-- LIT0, the first token (41_literal.md R134): the tag was used by the start of the command and is ignored here. -/
def execLit0 (_tag : BitVec 3) (data : List Byte) (s : State) : Answer :=
  takeBytes [1] s fun s1 => chunkCopy data (clearFirst s1)

/-- LIT, a literal chunk (41_literal.md R133). -/
def execLit (data : List Byte) (s : State) : Answer :=
  takeBytes [1] s (chunkCopy data)

/-- The literal chunks of a run, cut from the front, 32 bytes at most in each (41_literal.md R130). `fuel` bounds the
number of chunks; the length of the run is enough. -/
def chunksOf : Nat → List Byte → List Byte
  | 0, _ => []
  | _ + 1, [] => []
  | fuel + 1, b :: bs =>
    let chunk := (b :: bs).take Config.maxCopy
    BitVec.ofNat 8 (chunk.length - 1) :: (chunk ++ chunksOf fuel ((b :: bs).drop Config.maxCopy))

/-- The bytes EMIT_LITERALS emits for a run (41_literal.md R130). -/
def literalBytes (run : List Byte) : List Byte := chunksOf run.length run

/-- The pending run `IN[ANCHOR..b)` (10_state.md R24, 41_literal.md R131). -/
def pendingRun (s : State) (b : Nat) : List Byte := inBytes s s.anchor (b - s.anchor)

end Sys2Proof.Machine
end

