-- ==== Sys2Proof/Machine/Tags.lean ====
section
/-! DEFINITION. The reserved level tags of byte 0 (60_exceptions.md R223). -/

namespace Sys2Proof.Machine

/-- TAG_RSV_2_3: DECOMPRESS ends with UnknownLevel (60_exceptions.md R223). -/
def execTagRsv23 (_tag : BitVec 3) (_low : BitVec 5) (s : State) : Answer := raise .unknownLevel s

/-- TAG_RSV_4_7: DECOMPRESS ends with UnknownLevel (60_exceptions.md R223). -/
def execTagRsv47 (_tag : BitVec 3) (_low : BitVec 5) (s : State) : Answer := raise .unknownLevel s

end Sys2Proof.Machine
end

