-- ==== Sys2Proof/Machine/Dispatch.lean ====
section
/-! DEFINITION. One arm per token kind: its meaning. -/

namespace Sys2Proof.Machine

def exec (i : Instr) (s : State) : Host.Outcome State Fault Refusal :=
  match i with
  | .lit0 tag data => Sys2Proof.Machine.execLit0 tag data s
  | .lit data => Sys2Proof.Machine.execLit data s
  | .m1s lc dh dl => Sys2Proof.Machine.execM1S lc dh dl s
  | .m1l dh e dl => Sys2Proof.Machine.execM1L dh e dl s
  | .m2ns lc dh dl => Sys2Proof.Machine.execM2NS lc dh dl s
  | .m2nl dh conts last dl => Sys2Proof.Machine.execM2NL dh conts last dl s
  | .m2fs lc fh fl => Sys2Proof.Machine.execM2FS lc fh fl s
  | .m2fl conts last fh fl => Sys2Proof.Machine.execM2FL conts last fh fl s
  | .tagRsv23 tag low => Sys2Proof.Machine.execTagRsv23 tag low s
  | .tagRsv47 tag low => Sys2Proof.Machine.execTagRsv47 tag low s

end Sys2Proof.Machine
end

