-- ==== Sys2Proof/WellFormed.lean ====
section
/-! DEFINITION. Which terms of Instr are tokens of the format (30_encoding.md R71 to R80). -/

namespace Sys2Proof

/-- A literal chunk holds 1 to 32 bytes (30_encoding.md R73). -/
def chunkOk (data : List Byte) : Bool := 1 ≤ data.length && data.length ≤ Config.maxCopy

/-- A short match has `lc` in 1..6 (30_encoding.md R75). -/
def shortCodeOk (lc : BitVec 3) : Bool := lc ≠ 0#3 && lc ≠ 7#3

/-- A length field ends at a byte below 255 (30_encoding.md R78). -/
def terminatorOk (last : Byte) : Bool := last ≠ Config.cont

/-- The near form never holds the far escape (30_encoding.md R77, R78). -/
def nearOk (dh : BitVec 5) (dl : Byte) : Bool := !(dh = 31#5 && dl = Config.farMarker)

/-- The terms that stand for a token or a reserved tag. -/
def Instr.wellFormed : Instr → Bool
  | .lit0 tag data => tag.toNat ≤ 1 && chunkOk data
  | .lit data => chunkOk data
  | .m1s lc _ _ => shortCodeOk lc
  | .m1l _ _ _ => true
  | .m2ns lc dh dl => shortCodeOk lc && nearOk dh dl
  | .m2nl dh _ last dl => terminatorOk last && nearOk dh dl
  | .m2fs lc _ _ => shortCodeOk lc
  | .m2fl _ last _ _ => terminatorOk last
  | .tagRsv23 tag _ => tag = 2#3 || tag = 3#3
  | .tagRsv47 tag _ => 4 ≤ tag.toNat

end Sys2Proof
end

