-- ==== Sys2Proof/Decode.lean ====
section
/-! DEFINITION. The token decoder and encoder (30_encoding.md), the host's table word, and the notation of R89. -/

namespace Sys2Proof

/-- What decides how a control byte is read: FIRST and LEVEL (30_encoding.md R83). -/
structure Context where
  first : Bool
  level : Level
  deriving DecidableEq, Repr

/-- Why no token can be read. `used` is how many bytes of the token were read before the missing one was asked
for (60_exceptions.md R222, causes 1 and 3). -/
inductive Reject where
  /-- There is no control byte. -/
  | noByte
  /-- A literal chunk runs past the end of IN. -/
  | literalCut (used : Nat)
  /-- The Level1 extension byte is missing. -/
  | extensionMissing (used : Nat)
  /-- A Level2 length byte is missing. -/
  | lengthMissing (used : Nat)
  /-- The distance low byte is missing. -/
  | lowByteMissing (used : Nat)
  /-- A far-distance byte is missing. -/
  | farBytesMissing (used : Nat)
  deriving DecidableEq, Repr

def Reject.used : Reject → Nat
  | .noByte => 0
  | .literalCut n => n
  | .extensionMissing n => n
  | .lengthMissing n => n
  | .lowByteMissing n => n
  | .farBytesMissing n => n

/-- Bits 7:5 of a control byte: `lenCode`, or the level tag of byte 0 (30_encoding.md R71, R75). -/
def highBits (c : Byte) : BitVec 3 := c.extractLsb' 5 3

/-- Bits 4:0 of a control byte (30_encoding.md R75). -/
def lowBits (c : Byte) : BitVec 5 := c.setWidth 5

/-- A byte from its bits 7:5 and 4:0. -/
def controlByte (high : BitVec 3) (low : BitVec 5) : Byte := high ++ low

/-- A decoded token and the bytes after it, or why there is none. -/
abbrev Decoded := Except Reject (Instr × List Byte)

/-- The `cnt` raw bytes of a literal chunk (30_encoding.md R73). -/
def decodeChunk (mk : List Byte → Instr) (cnt : Nat) (bs : List Byte) : Decoded :=
  if (bs.take cnt).length < cnt then .error (.literalCut 1) else .ok (mk (bs.take cnt), bs.drop cnt)

/-- The reserved level tags of byte 0 (30_encoding.md R85, 60_exceptions.md R223). -/
def reservedTag (c : Byte) : Option Instr :=
  if 4 ≤ (highBits c).toNat then some (.tagRsv47 (highBits c) (lowBits c))
  else if 2 ≤ (highBits c).toNat then some (.tagRsv23 (highBits c) (lowBits c))
  else none

/-- Byte 0 (30_encoding.md R71, R74): bits 4:0 count the first chunk whatever the tag (log 28). -/
def decodeFirst (c : Byte) (bs : List Byte) : Decoded :=
  match reservedTag c with
  | some i => .ok (i, bs)
  | none => decodeChunk (.lit0 (highBits c)) ((lowBits c).toNat + 1) bs

/-- A Level1 match after its control byte (30_encoding.md R75, R76). -/
def decodeMatch1 (c : Byte) (bs : List Byte) : Decoded :=
  if highBits c = 7#3 then
    match bs with
    | [] => .error (.extensionMissing 1)
    | [_] => .error (.lowByteMissing 2)
    | e :: dl :: rest => .ok (.m1l (lowBits c) e dl, rest)
  else
    match bs with
    | [] => .error (.lowByteMissing 1)
    | dl :: rest => .ok (.m1s (highBits c) (lowBits c) dl, rest)

/-- Length bytes up to the first one below 255: how many continuation bytes, the terminator, and the bytes after
it; or how many bytes there were without a terminator (43_level2.md R184). -/
def decodeLength : List Byte → Except Nat (Nat × Byte × List Byte)
  | [] => .error 0
  | c :: bs =>
    if c = Config.cont then
      match decodeLength bs with
      | .ok (k, last, rest) => .ok (k + 1, last, rest)
      | .error n => .error (n + 1)
    else .ok (0, c, bs)

/-- The distance bytes of a Level2 match, `used` bytes into the token: near, or far by the escape
(30_encoding.md R79, R80, R83). -/
def decodeDistance2 (near : Byte → Instr) (far : Byte → Byte → Instr) (dh : BitVec 5) (used : Nat)
    (bs : List Byte) : Decoded :=
  match bs with
  | [] => .error (.lowByteMissing used)
  | dl :: rest =>
    if dl = Config.farMarker ∧ dh = 31#5 then
      match rest with
      | fh :: fl :: rest' => .ok (far fh fl, rest')
      | _ => .error (.farBytesMissing (used + 1))
    else .ok (near dl, rest)

/-- A Level2 match after its control byte (43_level2.md R179). -/
def decodeMatch2 (c : Byte) (bs : List Byte) : Decoded :=
  if highBits c = 7#3 then
    match decodeLength bs with
    | .error n => .error (.lengthMissing (1 + n))
    | .ok (k, last, rest) =>
      decodeDistance2 (.m2nl (lowBits c) k last) (.m2fl k last) (lowBits c) (k + 2) rest
  else
    decodeDistance2 (.m2ns (highBits c) (lowBits c)) (.m2fs (highBits c)) (lowBits c) 1 bs

/-- The token at the head of the bytes that are left of IN (30_encoding.md R83, 44_dispatcher.md R206). -/
def decode (ctx : Context) (bytes : List Byte) : Decoded :=
  match bytes with
  | [] => .error .noByte
  | c :: bs =>
    if ctx.first then decodeFirst c bs
    else if highBits c = 0#3 then decodeChunk .lit ((lowBits c).toNat + 1) bs
    else
      match ctx.level with
      | .one => decodeMatch1 c bs
      | .two => decodeMatch2 c bs

/-- Bits 4:0 of a literal's control byte, `cnt - 1` (30_encoding.md R73). -/
def countField (data : List Byte) : BitVec 5 := BitVec.ofNat 5 (data.length - 1)

/-- The length bytes `c1..ck` (30_encoding.md R78). -/
def lengthBytes (conts : Nat) (last : Byte) : List Byte := List.replicate conts Config.cont ++ [last]

/-- The bytes of a token (30_encoding.md R73 to R80; byte 0 alone for a reserved tag, R71). -/
def encode : Instr → List Byte
  | .lit0 tag data => controlByte tag (countField data) :: data
  | .lit data => controlByte 0#3 (countField data) :: data
  | .m1s lc dh dl => [controlByte lc dh, dl]
  | .m1l dh e dl => [controlByte 7#3 dh, e, dl]
  | .m2ns lc dh dl => [controlByte lc dh, dl]
  | .m2nl dh conts last dl => controlByte 7#3 dh :: (lengthBytes conts last ++ [dl])
  | .m2fs lc fh fl => [controlByte lc 31#5, Config.farMarker, fh, fl]
  | .m2fl conts last fh fl => controlByte 7#3 31#5 :: (lengthBytes conts last ++ [Config.farMarker, fh, fl])
  | .tagRsv23 tag low => [controlByte tag low]
  | .tagRsv47 tag low => [controlByte tag low]

/-- How many bytes a token occupies (30_encoding.md R87); a reserved tag is one byte. -/
def tokenSize : Instr → Nat
  | .lit0 _ data => 1 + data.length
  | .lit data => 1 + data.length
  | .m1s _ _ _ => 2
  | .m1l _ _ _ => 3
  | .m2ns _ _ _ => 2
  | .m2nl _ conts _ _ => 2 + (conts + 1)
  | .m2fs _ _ _ => 4
  | .m2fl conts _ _ _ => 4 + (conts + 1)
  | .tagRsv23 _ _ => 1
  | .tagRsv47 _ _ => 1

/-- Where a token kind is legal (30_encoding.md R72). -/
def legalIn (ctx : Context) : Instr → Bool
  | .lit0 _ _ => ctx.first
  | .lit _ => !ctx.first
  | .m1s _ _ _ => !ctx.first && ctx.level == .one
  | .m1l _ _ _ => !ctx.first && ctx.level == .one
  | .m2ns _ _ _ => !ctx.first && ctx.level == .two
  | .m2nl _ _ _ _ => !ctx.first && ctx.level == .two
  | .m2fs _ _ _ => !ctx.first && ctx.level == .two
  | .m2fl _ _ _ _ => !ctx.first && ctx.level == .two
  | .tagRsv23 _ _ => ctx.first
  | .tagRsv47 _ _ => ctx.first

/-! The notation of 00_scope.md R14 and 30_encoding.md R89. -/

/-- `M1 L, D` (30_encoding.md R89, R84). -/
def assembleM1 (L D : Nat) : Option Instr :=
  if 4 ≤ L ∧ L ≤ Config.l1MaxToken ∧ 1 ≤ D ∧ D ≤ 8192 then
    let dist := D - 1
    let dh := BitVec.ofNat 5 (dist / 256)
    let dl := BitVec.ofNat 8 (dist % 256)
    if L ≤ 9 then some (.m1s (BitVec.ofNat 3 (L - 3)) dh dl) else some (.m1l dh (BitVec.ofNat 8 (L - 10)) dl)
  else none

/-- `M2 L, D` (30_encoding.md R89, R84). -/
def assembleM2 (L D : Nat) : Option Instr :=
  if 4 ≤ L ∧ 1 ≤ D ∧ D ≤ 73727 then
    let len := L - 3
    let dist := D - 1
    let conts := (len - 7) / 255
    let last := BitVec.ofNat 8 ((len - 7) % 255)
    if dist < Config.l2NearBound then
      let dh := BitVec.ofNat 5 (dist / 256)
      let dl := BitVec.ofNat 8 (dist % 256)
      if len < 7 then some (.m2ns (BitVec.ofNat 3 len) dh dl) else some (.m2nl dh conts last dl)
    else
      let f := dist - Config.l2NearBound
      let fh := BitVec.ofNat 8 (f / 256)
      let fl := BitVec.ofNat 8 (f % 256)
      if len < 7 then some (.m2fs (BitVec.ofNat 3 len) fh fl) else some (.m2fl conts last fh fl)
  else none

/-- The pseudo-instruction `M1* L, D` for `L > 265`: full tokens, then the remainder if it is at least 4
(30_encoding.md R89, 42_level1.md R153, R154). -/
def assembleM1Star (L D : Nat) : List Instr :=
  let q := (L - 1) / Config.l1MaxToken
  let r := L - Config.l1MaxToken * q
  List.replicate q (assembleM1 Config.l1MaxToken D) ++ [assembleM1 r D] |>.filterMap id

/-- One item of a stream in the notation of 30_encoding.md R89. -/
inductive AsmItem where
  | lit (data : List Byte)
  | m1 (L D : Nat)
  | m2 (L D : Nat)
  | m1Star (L D : Nat)
  deriving DecidableEq, Repr

/-- The tokens an item stands for; none where it does not assemble. -/
def assembleItem : AsmItem → Option (List Instr)
  | .lit data => if chunkOk data then some [.lit data] else none
  | .m1 L D => (assembleM1 L D).map ([·])
  | .m2 L D => (assembleM2 L D).map ([·])
  | .m1Star L D =>
    if Config.l1MaxToken < L ∧ 1 ≤ D ∧ D ≤ 8192 then some (assembleM1Star L D) else none

/-- The bytes of a list of items. -/
def assembleBytes : List AsmItem → Option (List Byte)
  | [] => some []
  | it :: its =>
    match assembleItem it, assembleBytes its with
    | some is, some rest => some ((is.map encode).flatten ++ rest)
    | _, _ => none

/-- `TAG k`: the level-tag bits ORed into byte 0 (00_scope.md R14). -/
def applyTag (k : Nat) : List Byte → List Byte
  | [] => []
  | b :: bs => (b ||| BitVec.ofNat 8 (k * 32)) :: bs

/-! The host's table word (log 20). -/

/-- The bytes of a word of `n` bytes, the first byte in bits 7:0. -/
def bytesLowFirst : Nat → Nat → List Byte
  | 0, _ => []
  | n + 1, w => BitVec.ofNat 8 (w % 256) :: bytesLowFirst n (w / 256)

/-- The bytes of a table word as IN holds them. A row of 16 bits is "a 16-bit big-endian value" of bytes 0 and 1
(the M2FS row of spec/opcode_table.json); any other row is read byte by byte. -/
def tableBytes (nbits w : Nat) : List Byte :=
  if nbits = 16 then (bytesLowFirst 2 w).reverse else bytesLowFirst (nbits / 8) w

/-- Zero bytes put after a table word, enough for the longest token such a word can begin (33 bytes). -/
def tablePadding : List Byte := List.replicate 32 0#8

/-- DESIGN CHOICE (log 20): the FIRST and LEVEL a table word is read under. The word does not carry them, and one
byte value begins several rows. -/
def tableContext (bytes : List Byte) : Context :=
  match bytes with
  | [] => ⟨false, .one⟩
  | [c] =>
    if c.toNat < 0x10 then ⟨true, .one⟩
    else if c.toNat < 0x20 then ⟨false, .one⟩
    else if c.toNat < 0x30 then ⟨false, .one⟩
    else if c.toNat < 0x40 then ⟨false, .two⟩
    else if c.toNat < 0xE0 then ⟨true, .one⟩
    else if c.toNat < 0xF0 then ⟨false, .one⟩
    else ⟨false, .two⟩
  | _ :: _ :: _ => ⟨false, .two⟩

/-- The instruction the decoder reads from a table word (the host's probe, log 20). -/
def decodeTableWord (nbits w : Nat) : Option Instr :=
  let bytes := tableBytes nbits w
  match decode (tableContext bytes) (bytes ++ tablePadding) with
  | .ok (i, _) => some i
  | .error _ => none

end Sys2Proof
end

