-- ==== Sys2Proof/Machine/MatchFinder.lean ====
section
/-! DEFINITION. The hash-table match finder (40_match_finder.md R100 to R110, 43_level2.md R171). -/

namespace Sys2Proof.Machine

/-- HASH_default (40_match_finder.md R101). -/
def hashDefault (b0 b1 b2 : Byte) : Nat :=
  let v : BitVec 16 := b1 ++ b0
  let w : BitVec 16 := b2 ++ b1
  ((v ^^^ w ^^^ (v >>> 3)) &&& 0x1FFF#16).toNat

/-- The hash index: HASH reduced to 13 bits (40_match_finder.md R100, R102). -/
def hashIndex (choice : Config.HashChoice) (level : Level) (b0 b1 b2 : Byte) : Nat :=
  match choice with
  | .standard => hashDefault b0 b1 b2
  | .other n => Config.otherHash n level b0 b1 b2 % Config.hashSize

/-- `H` at scan position `p` (40_match_finder.md R100). -/
def hashAt (s : State) (p : Nat) : Nat :=
  hashIndex s.hash s.level (readIn s p) (readIn s (p + 1)) (readIn s (p + 2))

/-- Lookup then insert: the old occupant, and the state with `p` in the slot (40_match_finder.md R103). -/
def lookupInsert (s : State) (p : Nat) : Nat × State :=
  (readSlot s (hashAt s p), writeSlot s (hashAt s p) p)

/-- The match finder's tagged result (10_state.md R27, 40_match_finder.md R109). -/
inductive MatchResult where
  | noMatch
  | matched (distance L : Nat)
  deriving DecidableEq, Repr

/-- EXTEND from length `L`, at most `fuel` more bytes (40_match_finder.md R107). -/
def extendBy (s : State) (r p : Nat) : Nat → Nat → Nat
  | 0, L => L
  | fuel + 1, L =>
    if p + L < s.inLen ∧ readIn s (r + L) = readIn s (p + L) then extendBy s r p fuel (L + 1) else L

/-- `EXTEND(r, p, k)` (40_match_finder.md R107): the bytes of IN after `p` are fuel enough. -/
def extend (s : State) (r p k : Nat) : Nat := extendBy s r p (s.inLen - p) k

/-- Whether `n` bytes at `a` and at `b` agree, from offset `k` on. -/
def agree (s : State) (a b k : Nat) : Nat → Bool
  | 0 => true
  | n + 1 => readIn s (a + k) == readIn s (b + k) && agree s a b (k + 1) n

/-- A match shorter than MIN_MATCH is none (40_match_finder.md R108). -/
def longEnough (distance L : Nat) : MatchResult :=
  if L < Config.minMatch then .noMatch else .matched distance L

/-- `RUN(p)`, the Level2 run shortcut (43_level2.md R171). -/
def runShortcut (s : State) (p : Nat) : MatchResult :=
  if 1 ≤ p ∧ readIn s p = readIn s (p - 1) ∧ readIn s (p + 1) = readIn s (p - 1)
      ∧ readIn s (p + 2) = readIn s (p - 1) then
    longEnough 1 (extend s (p - 1) p 3)
  else .noMatch

/-- Acceptance of a candidate (40_match_finder.md R104 to R108). A candidate at or after `p` is at no distance
`≥ 1` and is rejected (R105; log 27). -/
def judge (s : State) (p cand : Nat) : MatchResult :=
  if cand = 0 ∨ p ≤ cand then .noMatch
  else
    let distance := p - cand
    match s.level with
    | .one =>
      if distance < Config.l1MaxDistance ∧ agree s cand p 0 3 then
        longEnough distance (extend s cand p 3)
      else .noMatch
    | .two =>
      if distance < Config.l2FarLimit ∧ agree s cand p 0 3 then
        if distance - 1 < Config.l2NearBound then longEnough distance (extend s cand p 3)
        else if p + 5 ≤ s.inLen ∧ agree s cand p 3 2 then longEnough distance (extend s cand p 5)
        else .noMatch
      else .noMatch

/-- `FIND(p)` (40_match_finder.md R109): its result, and the state with the slot written. -/
def find (s : State) (p : Nat) : MatchResult × State :=
  let (cand, s1) := lookupInsert s p
  match s.level with
  | .one => (judge s p cand, s1)
  | .two =>
    match runShortcut s p with
    | .matched distance L => (.matched distance L, s1)
    | .noMatch => (judge s p cand, s1)

end Sys2Proof.Machine
end

