-- ==== Sys2Proof/Machine/Commands.lean ====
section
/-! DEFINITION. The two commands: their start, their steps and their end (40_match_finder.md R111 to R114,
44_dispatcher.md). -/

namespace Sys2Proof.Machine

/-- Level selection (44_dispatcher.md R201). -/
def chooseLevel (inLen : Nat) : Level := if inLen < Config.levelThreshold then .one else .two

/-- The start block of COMPRESS (44_dispatcher.md R200). FIRST is unspecified (10_state.md R26):
a free value again, or the one of the CMD write where the command ends here (log 10). -/
def startCompress (s : State) : Answer :=
  if s.inLen = 0 then raise .emptyInput s
  else .next { s with
    level := chooseLevel s.inLen, ht := [], ip := 0, op := 0, anchor := 0
    first := Config.freeFirst s.draws, draws := s.draws + 1, seq := .body }

/-- The match tokens for a match of the stream's level, and the input bytes they cover (40_match_finder.md R112). -/
def matchTokens (level : Level) (distance L : Nat) : List Byte × Nat :=
  match level with
  | .one => (emitM1 distance L, coveredM1 L)
  | .two => (emitM2 distance L, L)

/-- STEP_C, one scan position (40_match_finder.md R112). -/
def scanStep (s : State) : Answer :=
  match find s s.ip with
  | (.noMatch, s1) => .next { s1 with ip := s.ip + 1 }
  | (.matched distance L, s1) =>
    let tokens := matchTokens s.level distance L
    withinOut { emitBytes (literalBytes (pendingRun s s.ip) ++ tokens.1) s1 with
      ip := s.ip + tokens.2, anchor := s.ip + tokens.2 }

/-- The level tag of a level, in place (44_dispatcher.md R202). -/
def tagBits (level : Level) : Byte := BitVec.ofNat 8 ((level.number - 1) * 32)

/-- STEP_FINISH_C (40_match_finder.md R114). -/
def finishCompress (s : State) : Answer :=
  let s1 := emitBytes (literalBytes (pendingRun s s.inLen)) s
  withinOut (succeed (writeOut s1 0 (readOut s1 0 ||| tagBits s.level)))

/-- The level of a tag 0 or 1 (44_dispatcher.md R205). -/
def levelOfTag (tag : BitVec 3) : Level := if tag = 0#3 then .one else .two

/-- The start block of DECOMPRESS after its two checks (44_dispatcher.md R205). ANCHOR is unspecified
(10_state.md R24): a free value again (log 10). -/
def startTokens (s : State) : State :=
  { s with
    level := levelOfTag (highBits (readIn s 0)), ip := 0, op := 0, first := true
    anchor := Config.freeAnchor s.draws, draws := s.draws + 1, seq := .body }

/-- The bytes of IN from IP on: all a token may be read from (20_memory.md R51, R55). -/
def tokenWindow (s : State) : List Byte := inBytes s s.ip (s.inLen - s.ip)

/-- How the next control byte is read (30_encoding.md R83). -/
def tokenContext (s : State) : Context := ⟨s.first, s.level⟩

/-- A token with a byte missing: CorruptStream (60_exceptions.md R222, causes 1 and 3; logs 12, 13). -/
def rejectToken (r : Reject) (s : State) : Answer :=
  raise .corruptStream (clearFirst { s with ip := s.ip + r.used })

end Sys2Proof.Machine
end

