-- ==== Sys2Proof/Machine/HostMoves.lean ====
section
/-! DEFINITION. What a move of the host does (60_exceptions.md R235, 70_reset_and_hazards.md R251, R253, R254). -/

namespace Sys2Proof.Machine

/-- A host write to IN, OUT, IN_LEN or OUT_CAP: never while BUSY (20_memory.md R61; log 5). -/
def whenNotBusy (s s' : State) : Answer :=
  if s.phase = .busy then .refused .hostWriteWhileBusy else .next s'

/-- A CMD write that starts a command (70_reset_and_hazards.md R251, 10_state.md R41). DESIGN CHOICE (log 10): all that the
command leaves unspecified is a free value from this write on: OUT, OUT_LEN and LEVEL until the command writes them, ANCHOR
in DECOMPRESS (R24), and FIRST in COMPRESS (R26). What the start block sets keeps its value until then. -/
def launch (c : Command) (s : State) : State :=
  { forgetOut s with
    cmd := c, phase := .busy, seq := .start, level := Config.freeLevel s.draws
    anchor := if c = .decompress then Config.freeAnchor s.draws else s.anchor
    first := if c = .compress then Config.freeFirst s.draws else s.first }

/-- `CMD <- v` (10_state.md R32, R37, 60_exceptions.md R235, R237). -/
def writeCommand (v : Nat) (s : State) : Answer :=
  if s.phase = .busy then .refused .commandWhileBusy
  else if v = 1 then
    if s.outCap < 2 * s.inLen then .refused .compressOutCapTooSmall else .next (launch .compress s)
  else if v = 2 then .next (launch .decompress s)
  else .refused .badCommand

/-- A reset at any time (70_reset_and_hazards.md R250, R253): the reset state, with fresh free values in the memories
(log 26). The HASH the core is built with, its placement and the host's coming moves are not the core's state. -/
def resetNow (s : State) : State :=
  { State.reset with
    hash := s.hash, iface := s.iface, host := s.host, inFill := s.draws, outFill := s.draws, draws := s.draws + 1 }

/-! A host access by address (00_scope.md R10, 20_memory.md R58; log 18). -/

/-- What one address reaches: a register, or a byte of a buffer. -/
inductive Target where
  | cmd
  | inLen
  | outCap
  | status
  | outLen
  | inByte (i : Nat)
  | outByte (i : Nat)
  deriving DecidableEq, Repr

/-- What address `a` reaches of a thing placed at `base`: a register at its address, a buffer over its addresses. -/
def targetOf (a base : Nat) : Config.Placed → Option Target
  | .cmd => if a = base then some .cmd else none
  | .inLen => if a = base then some .inLen else none
  | .outCap => if a = base then some .outCap else none
  | .status => if a = base then some .status else none
  | .outLen => if a = base then some .outLen else none
  | .inBuffer size => if base ≤ a ∧ a < base + size then some (.inByte (a - base)) else none
  | .outBuffer size => if base ≤ a ∧ a < base + size then some (.outByte (a - base)) else none

/-- What address `a` reaches; none where nothing, or more than one thing, is placed there. -/
def targetAt (m : Config.IfaceMap) (a : Nat) : Option Target :=
  match m.filterMap fun e => targetOf a e.1 e.2 with
  | [t] => some t
  | _ => none

/-- `IN[i] <- b`, by the host. -/
def hostWriteIn (i : Nat) (b : Byte) (s : State) : Answer :=
  whenNotBusy s { s with inMem := Memory.write s.inMem i b }

/-- `OUT[i] <- b`, by the host. -/
def hostWriteOut (i : Nat) (b : Byte) (s : State) : Answer := whenNotBusy s (writeOut s i b)

/-- `IN_LEN <- n`, by the host (10_state.md R33). -/
def hostWriteInLen (n : Nat) (s : State) : Answer := whenNotBusy s { s with inLen := n }

/-- `OUT_CAP <- n`, by the host (10_state.md R34). -/
def hostWriteOutCap (n : Nat) (s : State) : Answer := whenNotBusy s { s with outCap := n }

/-- A write of `v` where a byte stands (20_memory.md R57). -/
def asByte (v : Nat) (k : Byte → Answer) : Answer :=
  if v < 256 then k (BitVec.ofNat 8 v) else .refused .notAByte

/-- A host write at an address is the write of what stands there. -/
def writeTarget (v : Nat) (s : State) : Option Target → Answer
  | none => .refused .nothingPlaced
  | some .cmd => writeCommand v s
  | some .inLen => hostWriteInLen v s
  | some .outCap => hostWriteOutCap v s
  | some .status => .refused .readOnlyRegister
  | some .outLen => .refused .readOnlyRegister
  | some (.inByte i) => asByte v fun b => hostWriteIn i b s
  | some (.outByte i) => asByte v fun b => hostWriteOut i b s

/-- A host read at an address, without effect: STATUS, OUT_LEN, or a byte of a buffer (10_state.md R35, R36, 20_memory.md R57).
The spec gives the host no read of CMD, IN_LEN and OUT_CAP. DESIGN CHOICE (log 29): OUT_LEN and OUT are answered in every PHASE and
at every index, and IN too, where the spec admits OUT_LEN and `OUT[0..OUT_LEN)` after done = 1 only (60_exceptions.md R235). -/
def readAt (s : State) (a : Nat) : Option Nat :=
  match targetAt s.iface a with
  | none => none
  | some .cmd => none
  | some .inLen => none
  | some .outCap => none
  | some .status => some (statusWord s)
  | some .outLen => some s.outLen
  | some (.inByte i) => some (readIn s i).toNat
  | some (.outByte i) => some (readOut s i).toNat

/-- The effect of a host move; `pass` and `waitDone` have none of their own. -/
def hostMove (h : HostOp) (s : State) : Answer :=
  match h with
  | .writeIn i b => hostWriteIn i b s
  | .writeOut i b => hostWriteOut i b s
  | .writeInLen n => hostWriteInLen n s
  | .writeOutCap n => hostWriteOutCap n s
  | .writeCmd v => writeCommand v s
  | .writeAt a v => writeTarget v s (targetAt s.iface a)
  | .reset => .next (resetNow s)
  | .pass => .next s
  | .waitDone => .next s

end Sys2Proof.Machine
end

