-- ==== Sys2Proof/Machine/Sequencer.lean ====
section
/-! DEFINITION. Which move comes next, the host's or the core's, and what it is (44_dispatcher.md R200, R205, R206;
log 4). -/

namespace Sys2Proof.Machine

/-- What a step is to do: run a token at a state, or give an answer that needs no token. -/
inductive Plan where
  | run (i : Instr) (s : State)
  | answer (a : Answer)

/-- The next token of DECOMPRESS, or CorruptStream where a byte of it is missing (44_dispatcher.md R206). -/
def tokenPlan (s : State) : Plan :=
  match decode (tokenContext s) (tokenWindow s) with
  | .ok (i, _) => .run i s
  | .error r => .answer (rejectToken r s)

/-- The start of DECOMPRESS (44_dispatcher.md R205): EmptyInput, then the reserved tags, then the first token's
start state (60_exceptions.md R227). Where the command ends here ANCHOR and LEVEL are the CMD write's free values (log 10). -/
def startDecompressPlan (s : State) : Plan :=
  if s.inLen = 0 then .answer (raise .emptyInput s)
  else
    match reservedTag (readIn s 0) with
    | some i => .run i s
    | none => .answer (.next (startTokens s))

/-- The core's next move. Outside BUSY it waits (70_reset_and_hazards.md R250). -/
def corePlan (s : State) : Plan :=
  match s.phase with
  | .idle => .answer (.next s)
  | .done => .answer (.next s)
  | .busy =>
    match s.cmd, s.seq with
    | .none, _ => .answer (.fault .busyWithoutCommand)
    | .compress, .start => .answer (startCompress s)
    | .compress, .body => .answer (if s.ip + 4 ≤ s.inLen then scanStep s else finishCompress s)
    | .decompress, .start => startDecompressPlan s
    | .decompress, .body => if s.ip < s.inLen then tokenPlan s else .answer (.next (succeed s))

/-- The next move: the host's first one still to come, or the core's (log 4). -/
def plan (s : State) : Plan :=
  match s.host with
  | [] => corePlan s
  | .pass :: rest => corePlan { s with host := rest }
  | .waitDone :: rest => if s.phase = .done then .answer (.next { s with host := rest }) else corePlan s
  | h :: rest => .answer (hostMove h { s with host := rest })

/-! The host's probe (log 20). -/

/-- `s` with a table word placed so that the next step of DECOMPRESS runs it: a token at IP, or a reserved tag at byte 0
before the start block. -/
def placeTableWord (s : State) (nbits w : Nat) : State :=
  let bytes := tableBytes nbits w ++ tablePadding
  let reserved := (tableContext (tableBytes nbits w)).first
    && (match reservedTag (bytes.headD 0) with | some _ => true | none => false)
  let at0 := if reserved then 0 else s.ip
  { s with
    inMem := Memory.writeAll s.inMem at0 bytes
    inLen := at0 + bytes.length
    cmd := .decompress
    phase := .busy
    seq := if reserved then .start else .body
    first := (tableContext (tableBytes nbits w)).first
    level := (tableContext (tableBytes nbits w)).level
    host := [] }

end Sys2Proof.Machine
end

