-- ==== Sys2Proof/Machine/Step.lean ====
section
/-! DEFINITION. One step of the machine: a host move, a command's start, a scan position, a token, or a command's end
(00_scope.md R7; log 1). -/

namespace Sys2Proof.Machine

/-- One step. -/
def step (s : State) : Host.Outcome State Fault Refusal :=
  match plan s with
  | .run i s' => exec i s'
  | .answer a => a

/-- `s` with a table word placed where the next step fetches (log 20). -/
def State.withFetchWord (s : State) (nbits w : Nat) : State := placeTableWord s nbits w

end Sys2Proof.Machine
end

