-- ==== Sys2Proof/Safety.lean ====
section
/-! DEFINITION. What counts as a safe run: the invariant of the machine, the premise of an instance, what a token may
change, and a command as the host gives it. -/

namespace Sys2Proof.Safety

open Sys2Proof.Machine

/-- The premise of a claim about a hardware instance (00_scope.md R10; log 2): cursors fit in POS_BITS and the input in
MAX_IN_LEN. -/
def WithinInstance (s : State) : Prop :=
  s.inLen < 2 ^ Config.posBits ∧ s.outCap < 2 ^ Config.posBits ∧ s.inLen ≤ Config.maxInLen

/-- The three memories are in their canonical form. -/
def MemoriesWf (s : State) : Prop := Memory.wf s.inMem ∧ Memory.wf s.outMem ∧ slotsWf s.ht

/-- Every byte of OUT below `n` has been written (10_state.md R23). -/
def WrittenBelow (s : State) (n : Nat) : Prop := ∀ a < n, (Memory.read s.outMem a).isSome

/-- Every slot is unset or holds a position before `p` (10_state.md R30). -/
def SlotsBefore (s : State) (p : Nat) : Prop := ∀ h, readSlot s h = 0 ∨ readSlot s h < p

/-- COMPRESS between two of its steps. -/
structure CompressInv (s : State) : Prop where
  /-- EmptyInput has been ruled out (60_exceptions.md R221). -/
  nonempty : 1 ≤ s.inLen
  /-- The host's duty (60_exceptions.md R237). -/
  room : 2 * s.inLen ≤ s.outCap
  /-- 44_dispatcher.md R201. -/
  levelChosen : s.level = chooseLevel s.inLen
  /-- 10_state.md R24. -/
  anchorLe : s.anchor ≤ s.ip
  /-- 10_state.md R22. -/
  ipLe : s.ip ≤ s.inLen
  /-- What is emitted covers IN[0..ANCHOR) and never expands beyond twice its size (44_dispatcher.md R204). -/
  opLe : s.op ≤ 2 * s.anchor
  /-- Something has been emitted as soon as a match has been found. -/
  opPos : 1 ≤ s.anchor → 1 ≤ s.op
  /-- 10_state.md R23. -/
  written : WrittenBelow s s.op
  /-- The first token is a literal (44_dispatcher.md R203). -/
  firstLiteral : 1 ≤ s.op → (readOut s 0).toNat < 32
  /-- 10_state.md R30. -/
  slots : SlotsBefore s s.ip

/-- DECOMPRESS between two of its tokens. -/
structure DecompressInv (s : State) : Prop where
  /-- EmptyInput has been ruled out (60_exceptions.md R221). -/
  nonempty : 1 ≤ s.inLen
  /-- UnknownLevel has been ruled out (60_exceptions.md R223). -/
  tagKnown : reservedTag (readIn s 0) = none
  /-- 44_dispatcher.md R205, R212. -/
  levelChosen : s.level = levelOfTag (highBits (readIn s 0))
  /-- 10_state.md R22. -/
  ipLe : s.ip ≤ s.inLen
  /-- 44_dispatcher.md R208. -/
  opLe : s.op ≤ s.outCap
  /-- 10_state.md R23. -/
  written : WrittenBelow s s.op
  /-- 10_state.md R26. -/
  firstAtZero : s.first = true → s.ip = 0 ∧ s.op = 0

/-- What a BUSY core has, by its command and where it stands. -/
def BusyInv (s : State) : Prop :=
  match s.cmd, s.seq with
  | .none, _ => False
  | .compress, .start => 2 * s.inLen ≤ s.outCap
  | .compress, .body => CompressInv s
  | .decompress, .start => True
  | .decompress, .body => DecompressInv s

/-- The invariant of the machine. -/
structure Inv (s : State) : Prop where
  memories : MemoriesWf s
  busy : s.phase = .busy → BusyInv s
  /-- After a command that succeeded every byte of its result has been written (10_state.md R36). -/
  done : s.phase = .done → s.code = .ok → WrittenBelow s s.outLen

/-- A token that completes changes IP, OP and OUT, and FIRST where it is LIT0; nothing else (41_literal.md R133, R134,
42_level1.md R155, 43_level2.md R179). -/
def TokenFrame (s t : State) : Prop :=
  t = { s with ip := t.ip, op := t.op, outMem := t.outMem, first := t.first }

/-- `n` bytes were written at OP, which moved past them; every other byte of OUT reads as before. -/
def AppendsTo (s t : State) (n : Nat) : Prop :=
  t.op = s.op + n ∧ ∀ a, (a < s.op ∨ s.op + n ≤ a) → readOut t a = readOut s a

/-- The bytes of a literal chunk stand in OUT from the old OP on (41_literal.md R133). -/
def WritesChunk (s t : State) (data : List Byte) : Prop :=
  AppendsTo s t data.length ∧ ∀ k : Fin data.length, readOut t (s.op + k) = data[k]

/-- `L` bytes were copied from `distance` bytes back, each byte of the copy equal to the byte `distance` before it in the
new OUT, so that a copy that overlaps itself repeats (42_level1.md R157, 70_reset_and_hazards.md R255). -/
def CopiesBack (s t : State) (distance L : Nat) : Prop :=
  AppendsTo s t L ∧ ∀ k < L, readOut t (s.op + k) = readOut t (s.op + k - distance)

/-- What a command that ends on an error leaves (60_exceptions.md R224): the code, PHASE DONE, OUT and OUT_LEN
unspecified, and every other register, IN and HT as they were. -/
def EndsWith (e : ErrorKind) (s : State) (a : Answer) : Prop :=
  ∃ t, a = .next t ∧ t.code = errorCode e ∧ t.phase = .done ∧
    t = { s with code := t.code, phase := t.phase, outLen := t.outLen, outMem := t.outMem, outFill := t.outFill,
                 draws := t.draws }

/-- The same, with IP wherever the check that failed left it: the host cannot see it (60_exceptions.md R220). -/
def FailsWith (e : ErrorKind) (s : State) (a : Answer) : Prop := ∃ ip, EndsWith e { s with ip := ip } a

/-- A match token of `size` bytes: CorruptStream where one of them is past the end of IN, and else the three outcomes of
MATCH_COPY (42_level1.md R157). -/
def MatchOutcome (s : State) (a : Answer) (size dist L : Nat) : Prop :=
  (s.inLen < s.ip + size → FailsWith .corruptStream s a) ∧
  (s.ip + size ≤ s.inLen → s.op < dist + 1 → FailsWith .corruptStream s a) ∧
  (s.ip + size ≤ s.inLen → dist + 1 ≤ s.op → s.outCap < s.op + L → FailsWith .corruptStream s a) ∧
  (s.ip + size ≤ s.inLen → dist + 1 ≤ s.op → s.op + L ≤ s.outCap →
    ∃ t, a = .next t ∧ TokenFrame s t ∧ t.first = s.first ∧ t.ip = s.ip + size ∧ CopiesBack s t (dist + 1) L)

/-- The distance and the raw length a match token carries (30_encoding.md R81, R82). -/
def operandsOf : Instr → Option (Nat × Nat)
  | .lit0 _ _ => none
  | .lit _ => none
  | .m1s lc dh dl => some (nearDist dh dl + 1, rawLen (shortLen lc))
  | .m1l dh e dl => some (nearDist dh dl + 1, rawLen (extendedLen e))
  | .m2ns lc dh dl => some (nearDist dh dl + 1, rawLen (shortLen lc))
  | .m2nl dh conts last dl => some (nearDist dh dl + 1, rawLen (longLen conts last))
  | .m2fs lc fh fl => some (farDist fh fl + 1, rawLen (shortLen lc))
  | .m2fl conts last fh fl => some (farDist fh fl + 1, rawLen (longLen conts last))
  | .tagRsv23 _ _ => none
  | .tagRsv47 _ _ => none

/-- The core's turn to move: the host has no move to make. -/
def CoreTurn (s : State) (c : Command) (q : Seq) : Prop :=
  s.host = [] ∧ s.phase = .busy ∧ s.cmd = c ∧ s.seq = q

/-- The next step of DECOMPRESS is a token (44_dispatcher.md R206). -/
def TokenTurn (s : State) : Prop := CoreTurn s .decompress .body ∧ s.ip < s.inLen

/-- The next step of COMPRESS is a scan position (40_match_finder.md R112). -/
def ScanTurn (s : State) : Prop := CoreTurn s .compress .body ∧ s.ip + 4 ≤ s.inLen

/-- The next step of COMPRESS is its last (40_match_finder.md R114). -/
def FinishTurn (s : State) : Prop := CoreTurn s .compress .body ∧ s.inLen < s.ip + 4

/-- The host's moves for one command, in the order of 70_reset_and_hazards.md R254. -/
def commandMoves (cmd : Nat) (input : List Byte) (outCap : Nat) : List HostOp :=
  input.zipIdx.map (fun e => HostOp.writeIn e.2 e.1)
    ++ [.writeInLen input.length, .writeOutCap outCap, .writeCmd cmd, .waitDone]

/-- From `s`, the host gives a command and waits: the machine reaches `t`, with the command done and no move left. -/
def CommandReaches (s : State) (cmd : Nat) (input : List Byte) (outCap : Nat) (t : State) : Prop :=
  ∃ k, Host.Core.run Sys2Proof.core k { s with host := commandMoves cmd input outCap } = .next t
    ∧ t.phase = .done ∧ t.host = []

/-- The six properties of a conforming encoder (40_match_finder.md R117), of an encoder given as a function. -/
structure Conforming (encoder : List Byte → List Byte) : Prop where
  /-- 2 and 1: byte 0 carries the tag of the level R201 picks. -/
  tagged : ∀ b, b ≠ [] → ∃ c rest, encoder b = c :: rest ∧ levelOfTag (highBits c) = chooseLevel b.length
    ∧ reservedTag c = none
  /-- 4 (and 1, 3: a stream that decodes begins with a literal): DECOMPRESS returns the input. -/
  decodes : ∀ b, b ≠ [] → ∀ s, s.phase ≠ .busy →
    ∃ t, CommandReaches s 2 (encoder b) b.length t ∧ result? t = some b
  /-- 5. (6 holds of any function.) -/
  bounded : ∀ b, b ≠ [] → (encoder b).length ≤ 2 * b.length

end Sys2Proof.Safety
end

