-- ==== Sys2Proof/Certificates/Slice0/Obligations.lean ====
section
/-! DEFINITION. The statements for the provers. -/

open Sys2Proof Sys2Proof.Machine Sys2Proof.Safety

/-! ## The encoding -/

/-- 30_encoding.md R72 to R83: no bit of a token is dropped. -/
def Obligations.DecodeOfEncodeIsTheToken : Prop :=
  ∀ (ctx : Context) (i : Instr) (rest : List Byte),
    i.wellFormed = true → legalIn ctx i = true → decode ctx (encode i ++ rest) = .ok (i, rest)

/-- 30_encoding.md R72 to R83: whatever decodes is a token of the format, legal where it stands, and its bytes are the
bytes read. -/
def Obligations.DecodedBytesAreTheTokensOwn : Prop :=
  ∀ (ctx : Context) (bytes rest : List Byte) (i : Instr), decode ctx bytes = .ok (i, rest) →
    i.wellFormed = true ∧ legalIn ctx i = true ∧ encode i ++ rest = bytes

/-- 30_encoding.md R85, "No illegal control byte": after byte 0 every control byte begins a token, in both levels. -/
def Obligations.EveryControlByteBeginsSomeToken : Prop :=
  ∀ (level : Level) (c : Byte), ∃ bytes i, decode ⟨false, level⟩ (c :: bytes) = .ok (i, [])

/-- Words written out from 30_encoding.md R71 to R80 and the examples of 41, 42 and 43. -/
def Obligations.WordsOfTheSpecDecode : Prop :=
  decode ⟨true, .one⟩ [0x20, 0x61] = .ok (.lit0 1 [0x61], []) ∧
  decode ⟨false, .one⟩ [0x01, 0x61, 0x62] = .ok (.lit [0x61, 0x62], []) ∧
  decode ⟨false, .one⟩ [0x60, 0x02] = .ok (.m1s 3 0 2, []) ∧
  decode ⟨false, .one⟩ [0xE0, 0xFF, 0x00] = .ok (.m1l 0 255 0, []) ∧
  decode ⟨false, .two⟩ [0x3F, 0xFE] = .ok (.m2ns 1 31 0xFE, []) ∧
  decode ⟨false, .two⟩ [0xE0, 0xFF, 0xFF, 0x05, 0x00] = .ok (.m2nl 0 2 5 0, []) ∧
  decode ⟨false, .two⟩ [0x5F, 0xFF, 0x00, 0x01] = .ok (.m2fs 2 0 1, []) ∧
  decode ⟨false, .two⟩ [0xFF, 0xFF, 0x22, 0xFF, 0xDF, 0x14] = .ok (.m2fl 1 0x22 0xDF 0x14, []) ∧
  decode ⟨true, .one⟩ [0x40] = .ok (.tagRsv23 2 0, []) ∧
  decode ⟨true, .one⟩ [0xE0] = .ok (.tagRsv47 7 0, [])

/-- 42_level1.md R158: the raw length and the distance of any Level1 match token. -/
def Obligations.Level1TokenRanges : Prop :=
  ∀ (i : Instr) (distance L : Nat), i.wellFormed = true → legalIn ⟨false, .one⟩ i = true →
    operandsOf i = some (distance, L) → 4 ≤ L ∧ L ≤ 265 ∧ 1 ≤ distance ∧ distance ≤ 8192

/-- 30_encoding.md R81, R82: the raw length and the distance of any Level2 match token; near distances end at 8191, far
ones lie in 8192 to 73727. -/
def Obligations.Level2TokenRanges : Prop :=
  ∀ (i : Instr) (distance L : Nat), i.wellFormed = true → legalIn ⟨false, .two⟩ i = true →
    operandsOf i = some (distance, L) →
    4 ≤ L ∧ 1 ≤ distance ∧ distance ≤ 73727 ∧
      (match i with
       | .m2ns _ _ _ => L ≤ 9 ∧ distance ≤ 8191
       | .m2nl _ conts last _ => L = 10 + 255 * conts + last.toNat ∧ distance ≤ 8191
       | .m2fs _ fh fl => L ≤ 9 ∧ distance = 8192 + ((fh.toNat <<< 8) ||| fl.toNat)
       | .m2fl conts last fh fl =>
         L = 10 + 255 * conts + last.toNat ∧ distance = 8192 + ((fh.toNat <<< 8) ||| fl.toNat)
       | _ => False)

/-- 30_encoding.md R89: `M1 L, D` and `M2 L, D` assemble exactly on their ranges, to a token of their level that carries
`L` and `D`. -/
def Obligations.AssembledMatchesCarryTheirOperands : Prop :=
  ∀ L D : Nat,
    (∀ i, assembleM1 L D = some i →
      i.wellFormed = true ∧ legalIn ⟨false, .one⟩ i = true ∧ operandsOf i = some (D, L)) ∧
    ((assembleM1 L D).isSome ↔ 4 ≤ L ∧ L ≤ 265 ∧ 1 ≤ D ∧ D ≤ 8192) ∧
    (∀ i, assembleM2 L D = some i →
      i.wellFormed = true ∧ legalIn ⟨false, .two⟩ i = true ∧ operandsOf i = some (D, L)) ∧
    ((assembleM2 L D).isSome ↔ 4 ≤ L ∧ 1 ≤ D ∧ D ≤ 73727)

/-! ## The tokens -/

/-- 41_literal.md R134: LIT0, with a byte missing, with OUT too small, and complete. First which bytes decode to it. -/
def Obligations.Lit0ByItsRule : Prop :=
  (∀ (level : Level) (byte0 : Byte) (data rest : List Byte), byte0.toNat < 64 → data.length = byte0.toNat % 32 + 1 →
    decode ⟨true, level⟩ (byte0 :: (data ++ rest)) = .ok (.lit0 (BitVec.ofNat 3 (byte0.toNat / 32)) data, rest)) ∧
  (∀ (tag : BitVec 3) (data : List Byte) (s : State), s.ip + 1 ≤ s.inLen →
     (s.inLen < s.ip + 1 + data.length →
       FailsWith .corruptStream { s with first := false } (exec (.lit0 tag data) s)) ∧
     (s.ip + 1 + data.length ≤ s.inLen → s.outCap < s.op + data.length →
       FailsWith .corruptStream { s with first := false } (exec (.lit0 tag data) s)) ∧
     (s.ip + 1 + data.length ≤ s.inLen → s.op + data.length ≤ s.outCap →
       ∃ t, exec (.lit0 tag data) s = .next t ∧ TokenFrame s t ∧ t.first = false ∧
         t.ip = s.ip + 1 + data.length ∧ WritesChunk s t data))

/-- 41_literal.md R133: LIT, with a byte missing, with OUT too small, and complete. First which bytes decode to it. -/
def Obligations.LitByItsRule : Prop :=
  (∀ (level : Level) (ctrl : Byte) (data rest : List Byte), ctrl.toNat < 32 → data.length = ctrl.toNat + 1 →
    decode ⟨false, level⟩ (ctrl :: (data ++ rest)) = .ok (.lit data, rest)) ∧
  (∀ (data : List Byte) (s : State),
     (s.inLen < s.ip + 1 + data.length →
       FailsWith .corruptStream s (exec (.lit data) s)) ∧
     (s.ip + 1 + data.length ≤ s.inLen → s.outCap < s.op + data.length →
       FailsWith .corruptStream s (exec (.lit data) s)) ∧
     (s.ip + 1 + data.length ≤ s.inLen → s.op + data.length ≤ s.outCap →
       ∃ t, exec (.lit data) s = .next t ∧ TokenFrame s t ∧ t.first = s.first ∧
         t.ip = s.ip + 1 + data.length ∧ WritesChunk s t data))

/-- 42_level1.md R155: M1S, with the low byte missing, and then by MATCH_COPY. First which bytes decode to it. -/
def Obligations.M1SByItsRule : Prop :=
  (∀ (ctrl dl : Byte) (rest : List Byte), 1 ≤ ctrl.toNat >>> 5 → ctrl.toNat >>> 5 ≤ 6 →
    decode ⟨false, .one⟩ (ctrl :: dl :: rest) =
      .ok (.m1s (BitVec.ofNat 3 (ctrl.toNat >>> 5)) (BitVec.ofNat 5 (ctrl.toNat &&& 31)) dl, rest)) ∧
  (∀ (lc : BitVec 3) (dh : BitVec 5) (dl : Byte) (s : State),
    MatchOutcome s (exec (.m1s lc dh dl) s) 2 ((dh.toNat <<< 8) ||| dl.toNat) (lc.toNat + 3))

/-- 42_level1.md R156: M1L, with a byte missing, and then by MATCH_COPY. First which bytes decode to it: one
extension byte, whatever it holds. -/
def Obligations.M1LByItsRule : Prop :=
  (∀ (ctrl e dl : Byte) (rest : List Byte), ctrl.toNat >>> 5 = 7 →
    decode ⟨false, .one⟩ (ctrl :: e :: dl :: rest) = .ok (.m1l (BitVec.ofNat 5 (ctrl.toNat &&& 31)) e dl, rest)) ∧
  (∀ (dh : BitVec 5) (e dl : Byte) (s : State),
    MatchOutcome s (exec (.m1l dh e dl) s) 3 ((dh.toNat <<< 8) ||| dl.toNat) (7 + e.toNat + 3))

/-- 43_level2.md R180: M2NS, with the low byte missing, and then by MATCH_COPY. First which bytes decode to it. -/
def Obligations.M2NSByItsRule : Prop :=
  (∀ (ctrl dl : Byte) (rest : List Byte), 1 ≤ ctrl.toNat >>> 5 → ctrl.toNat >>> 5 ≤ 6 →
    ¬ (ctrl.toNat &&& 31 = 31 ∧ dl = 255) →
    decode ⟨false, .two⟩ (ctrl :: dl :: rest) =
      .ok (.m2ns (BitVec.ofNat 3 (ctrl.toNat >>> 5)) (BitVec.ofNat 5 (ctrl.toNat &&& 31)) dl, rest)) ∧
  (∀ (lc : BitVec 3) (dh : BitVec 5) (dl : Byte) (s : State),
    MatchOutcome s (exec (.m2ns lc dh dl) s) 2 ((dh.toNat <<< 8) ||| dl.toNat) (lc.toNat + 3))

/-- 43_level2.md R181: M2NL, with a length byte or the low byte missing, and then by MATCH_COPY; the length is 7 plus the
sum of the length bytes, plus 3. First which bytes decode to it. -/
def Obligations.M2NLByItsRule : Prop :=
  (∀ (ctrl last dl : Byte) (conts : Nat) (rest : List Byte), ctrl.toNat >>> 5 = 7 → last ≠ 255 →
    ¬ (ctrl.toNat &&& 31 = 31 ∧ dl = 255) →
    decode ⟨false, .two⟩ (ctrl :: (List.replicate conts 255 ++ last :: dl :: rest)) =
      .ok (.m2nl (BitVec.ofNat 5 (ctrl.toNat &&& 31)) conts last dl, rest)) ∧
  (∀ (dh : BitVec 5) (conts : Nat) (last dl : Byte) (s : State),
    MatchOutcome s (exec (.m2nl dh conts last dl) s) (conts + 1 + 2) ((dh.toNat <<< 8) ||| dl.toNat)
      (7 + ((lengthBytes conts last).map BitVec.toNat).sum + 3))

/-- 43_level2.md R182: M2FS, with the marker or a far byte missing, and then by MATCH_COPY from `OP - 8192 - f`. First
which bytes decode to it. -/
def Obligations.M2FSByItsRule : Prop :=
  (∀ (ctrl fh fl : Byte) (rest : List Byte), 1 ≤ ctrl.toNat >>> 5 → ctrl.toNat >>> 5 ≤ 6 →
    ctrl.toNat &&& 31 = 31 →
    decode ⟨false, .two⟩ (ctrl :: 255 :: fh :: fl :: rest) =
      .ok (.m2fs (BitVec.ofNat 3 (ctrl.toNat >>> 5)) fh fl, rest)) ∧
  (∀ (lc : BitVec 3) (fh fl : Byte) (s : State),
    MatchOutcome s (exec (.m2fs lc fh fl) s) 4 (8191 + ((fh.toNat <<< 8) ||| fl.toNat)) (lc.toNat + 3))

/-- 43_level2.md R183: M2FL, with a byte missing, and then by MATCH_COPY. First which bytes decode to it. -/
def Obligations.M2FLByItsRule : Prop :=
  (∀ (last fh fl : Byte) (conts : Nat) (rest : List Byte), last ≠ 255 →
    decode ⟨false, .two⟩ (255 :: (List.replicate conts 255 ++ last :: 255 :: fh :: fl :: rest)) =
      .ok (.m2fl conts last fh fl, rest)) ∧
  (∀ (conts : Nat) (last fh fl : Byte) (s : State),
    MatchOutcome s (exec (.m2fl conts last fh fl) s) (conts + 1 + 4) (8191 + ((fh.toNat <<< 8) ||| fl.toNat))
      (7 + ((lengthBytes conts last).map BitVec.toNat).sum + 3))

/-- 60_exceptions.md R223: the effect of a reserved tag is to end the command with UnknownLevel. -/
def Obligations.ReservedTagsEndWithUnknownLevel : Prop :=
  ∀ (tag : BitVec 3) (low : BitVec 5) (s : State),
    EndsWith .unknownLevel s (exec (.tagRsv23 tag low) s) ∧ EndsWith .unknownLevel s (exec (.tagRsv47 tag low) s)

/-- 42_level1.md R157, 70_reset_and_hazards.md R255: a copy repeats the `distance` bytes before OP, over and over. -/
def Obligations.MatchCopyRepeatsItsPeriod : Prop :=
  ∀ (i : Instr) (s t : State) (distance L : Nat), operandsOf i = some (distance, L) →
    exec i s = .next t → t.phase ≠ .done →
    ∀ k < L, readOut t (s.op + k) = readOut s (s.op - distance + k % distance)

/-- 60_exceptions.md R224: the end of a command on error. -/
def Obligations.RaiseEndsTheCommand : Prop :=
  ∀ (e : ErrorKind) (s : State), EndsWith e s (raise e s) ∧
    ∀ t, raise e s = .next t → statusDone t = true ∧
      statusWord t = 4 + (match e with | .emptyInput => 1 | .corruptStream => 2 | .unknownLevel => 3)

/-! ## The steps of DECOMPRESS -/

/-- 44_dispatcher.md R206: a step of DECOMPRESS is the token its bytes decode to. -/
def Obligations.StepRunsTheDecodedToken : Prop :=
  ∀ (s : State) (i : Instr) (rest : List Byte), TokenTurn s →
    decode (tokenContext s) (tokenWindow s) = .ok (i, rest) → step s = exec i s

/-- 44_dispatcher.md R205, 60_exceptions.md R223: at the start of DECOMPRESS a reserved tag in byte 0 runs as its own
instruction, whatever follows it. -/
def Obligations.StepRunsTheReservedTag : Prop :=
  ∀ (s : State) (i : Instr), CoreTurn s .decompress .start → 1 ≤ s.inLen →
    reservedTag (readIn s 0) = some i → step s = exec i s

/-- A step in which the host passes is the core's own step (log 4). -/
def Obligations.HostPassLetsTheCoreMove : Prop :=
  ∀ (s : State) (rest : List HostOp),
    step { s with host := .pass :: rest } =
      (match corePlan { s with host := rest } with
       | .run i t => exec i t
       | .answer a => a)

/-- 60_exceptions.md R222 causes 1 and 3: a token with a byte missing ends the command with CorruptStream. -/
def Obligations.MissingByteIsCorruptStream : Prop :=
  ∀ (s : State) (r : Reject), TokenTurn s → decode (tokenContext s) (tokenWindow s) = .error r →
    EndsWith .corruptStream { s with ip := s.ip + r.used, first := false } (step s) ∧ s.ip + r.used ≤ s.inLen

/-- 44_dispatcher.md R206: a token step consumes at least two bytes of IN, or ends the command on an error. -/
def Obligations.TokenStepConsumesTwoBytes : Prop :=
  ∀ s : State, TokenTurn s → ∃ t, step s = .next t ∧
    ((t.phase = .done ∧ t.code ≠ .ok) ∨
      (t.phase = .busy ∧ s.ip + 2 ≤ t.ip ∧ t.ip ≤ s.inLen ∧ t.first = false ∧ s.op ≤ t.op ∧ t.op ≤ s.outCap))

/-- 44_dispatcher.md R205, 60_exceptions.md R221, R227: the start of DECOMPRESS, with its errors in their order. -/
def Obligations.DecompressStartsByItsRule : Prop :=
  ∀ s : State, CoreTurn s .decompress .start →
    (s.inLen = 0 → EndsWith .emptyInput s (step s)) ∧
    (1 ≤ s.inLen → 0x40 ≤ (readIn s 0).toNat → EndsWith .unknownLevel s (step s)) ∧
    (1 ≤ s.inLen → (readIn s 0).toNat < 0x40 →
      ∃ t, step s = .next t ∧
        t = { s with level := t.level, ip := 0, op := 0, first := true, seq := .body, anchor := t.anchor,
                     draws := t.draws } ∧
        t.level.number = (readIn s 0).toNat / 32 + 1)

/-- 44_dispatcher.md R207: the end of a DECOMPRESS. -/
def Obligations.DecompressEndsAtTheEndOfIn : Prop :=
  ∀ s : State, CoreTurn s .decompress .body → s.inLen ≤ s.ip →
    ∃ t, step s = .next t ∧ t = { s with outLen := s.op, code := .ok, phase := .done } ∧
      statusWord t = 4 ∧ result? t = some (outBytes s 0 s.op)

/-- 10_state.md R31: the hash table is never read by DECOMPRESS. -/
def Obligations.DecompressNeverReadsTheTable : Prop :=
  ∀ (s t : State) (q : Seq) (table : List Slot), CoreTurn s .decompress q → step s = .next t →
    step { s with ht := table } = .next { t with ht := table }

/-! ## The match finder -/

/-- 40_match_finder.md R101: the default hash, by its formula and the spec's worked indices. -/
def Obligations.DefaultHashByItsFormula : Prop :=
  (∀ b0 b1 b2 : Byte, hashDefault b0 b1 b2 =
    (let v := b0.toNat ||| (b1.toNat <<< 8)
     ((v ^^^ (b1.toNat ||| (b2.toNat <<< 8))) ^^^ (v >>> 3)) &&& 0x1FFF)) ∧
  hashDefault 0x61 0x62 0x63 = 3407 ∧ hashDefault 0x61 0x61 0x61 = 3116 ∧
  hashDefault 0 0 0 = 0 ∧ hashDefault 0xFF 0xFF 0xFF = 8191

/-- 40_match_finder.md R103, R109, 70_reset_and_hazards.md R258: FIND judges the candidate that stood in the slot of the hash
before the write, in Level2 only where the run shortcut gives no match; at every scan position, matched or not, that slot takes
the position, and nothing else changes. -/
def Obligations.FindOverwritesOneSlot : Prop :=
  ∀ (s : State) (p : Nat),
    hashAt s p < 8192 ∧
    (find s p).1 =
      (match s.level with
       | .one => judge s p (readSlot s (hashAt s p))
       | .two => if runShortcut s p = .noMatch then judge s p (readSlot s (hashAt s p)) else runShortcut s p) ∧
    (find s p).2 = { s with ht := (find s p).2.ht } ∧
    ∀ h, readSlot (find s p).2 h = if h = hashAt s p then p else readSlot s h

/-- 40_match_finder.md R104, 44_dispatcher.md R203: a slot that holds 0 gives no match by the table, and position 0 never
matches at all, so the first token is a literal. -/
def Obligations.UnsetSlotGivesNoMatch : Prop :=
  ∀ (s : State) (p : Nat),
    (readSlot s (hashAt s p) = 0 → s.level = .one → (find s p).1 = .noMatch) ∧
    (readSlot s (hashAt s p) = 0 → s.level = .two → (find s p).1 = runShortcut s p) ∧
    (SlotsBefore s 0 → (find s 0).1 = .noMatch)

/-- 40_match_finder.md R105, R108: when a Level1 candidate is accepted, and with what distance and length. -/
def Obligations.Level1AcceptanceTest : Prop :=
  ∀ (s : State) (p cand distance L : Nat), s.level = .one → 1 ≤ cand → cand < p →
    (judge s p cand = .matched distance L ↔
      distance = p - cand ∧ distance ≤ 8191 ∧ (∀ i < 3, readIn s (cand + i) = readIn s (p + i)) ∧
        L = extend s cand p 3 ∧ 4 ≤ L)

/-- 40_match_finder.md R106, R108: when a Level2 candidate is accepted, near or far. -/
def Obligations.Level2AcceptanceTest : Prop :=
  ∀ (s : State) (p cand distance L : Nat), s.level = .two → 1 ≤ cand → cand < p →
    (judge s p cand = .matched distance L ↔
      distance = p - cand ∧ distance < 73725 ∧ (∀ i < 3, readIn s (cand + i) = readIn s (p + i)) ∧ 4 ≤ L ∧
        (if distance - 1 < 8191 then L = extend s cand p 3
         else p + 5 ≤ s.inLen ∧ (∀ i < 5, readIn s (cand + i) = readIn s (p + i)) ∧ L = extend s cand p 5))

/-- 40_match_finder.md R107: EXTEND stops at the first mismatch or at the end of the input, and not before. -/
def Obligations.ExtensionIsMaximal : Prop :=
  ∀ (s : State) (r p k : Nat),
    k ≤ extend s r p k ∧
    (∀ i, k ≤ i → i < extend s r p k → p + i < s.inLen ∧ readIn s (r + i) = readIn s (p + i)) ∧
    ¬ (p + extend s r p k < s.inLen ∧ readIn s (r + extend s r p k) = readIn s (p + extend s r p k))

/-- 43_level2.md R171: the run shortcut. -/
def Obligations.RunShortcutByItsRule : Prop :=
  ∀ (s : State) (p distance L : Nat),
    runShortcut s p = .matched distance L ↔
      distance = 1 ∧ 1 ≤ p ∧ (∀ i < 3, readIn s (p + i) = readIn s (p - 1)) ∧ L = extend s (p - 1) p 3 ∧ 4 ≤ L

/-- 40_match_finder.md R110: a match the finder reports is one, whatever HASH answered. -/
def Obligations.FoundMatchesAreReal : Prop :=
  ∀ (s : State) (p distance L : Nat), (find s p).1 = .matched distance L →
    (∀ i < L, readIn s (p + i) = readIn s (p - distance + i)) ∧ p + L ≤ s.inLen

/-- 40_match_finder.md R105, R106, R108: the distances and lengths the encoder takes. -/
def Obligations.FoundMatchesAreEncodable : Prop :=
  ∀ (s : State) (p distance L : Nat), (find s p).1 = .matched distance L →
    4 ≤ L ∧ 1 ≤ distance ∧ distance ≤ p ∧
      (s.level = .one → distance ≤ 8191) ∧ (s.level = .two → distance < 73725 ∧ (8192 ≤ distance → 5 ≤ L))

/-! ## The encoder -/

/-- 41_literal.md R130, 44_dispatcher.md R204: a run is cut from the front into chunks, all of 32 bytes but the last; it
costs one byte more per chunk. -/
def Obligations.LiteralRunIsCutFromTheFront : Prop :=
  ∀ run : List Byte, (∃ chunks : List (List Byte),
    literalBytes run = (chunks.map (fun c => encode (.lit c))).flatten ∧ chunks.flatten = run ∧
      (∀ c ∈ chunks, 1 ≤ c.length ∧ c.length ≤ 32) ∧ (∀ c ∈ chunks.dropLast, c.length = 32)) ∧
    (literalBytes run).length = run.length + (run.length + 31) / 32

/-- 43_level2.md R174: LENBYTES. -/
def Obligations.LengthBytesSumToTheLength : Prop :=
  ∀ len : Nat, 7 ≤ len → ∃ last : Byte,
    lenBytes len = List.replicate ((len - 7) / 255) 255 ++ [last] ∧ last ≠ 255 ∧
      ((lenBytes len).map BitVec.toNat).sum = len - 7

/-- 30_encoding.md R84, R89, 42_level1.md R151 to R154: EMIT_M1 emits the tokens of `M1* L, D`: as many of raw length 265 as
the split makes, then the remainder if it is at least 4; they cover what it says. -/
def Obligations.EmitM1IsTheSplitToken : Prop :=
  ∀ distance L : Nat, 1 ≤ distance → distance ≤ 8191 → 4 ≤ L →
    emitM1 distance L = ((assembleM1Star L distance).map encode).flatten ∧
    (∀ i ∈ assembleM1Star L distance, i.wellFormed = true ∧ legalIn ⟨false, .one⟩ i = true) ∧
    (let r := L - 265 * ((L - 1) / 265)
     let lengths := List.replicate ((L - 1) / 265) 265 ++ (if 4 ≤ r then [r] else [])
     1 ≤ r ∧ r ≤ 265 ∧
      (assembleM1Star L distance).map operandsOf = lengths.map (fun n => some (distance, n)) ∧
      lengths.sum = coveredM1 L ∧ 4 ≤ coveredM1 L ∧ coveredM1 L ≤ L ∧ L < coveredM1 L + 4)

/-- 30_encoding.md R84, 43_level2.md R173: EMIT_M2 emits the one token of `M2 L, D`. -/
def Obligations.EmitM2IsOneToken : Prop :=
  ∀ distance L : Nat, 1 ≤ distance → distance < 73725 → 4 ≤ L →
    ∃ i, assembleM2 L distance = some i ∧ emitM2 distance L = encode i

/-- 44_dispatcher.md R204: a match costs at most as many bytes as it covers. -/
def Obligations.MatchTokensNeverExpand : Prop :=
  ∀ (level : Level) (distance L : Nat), 4 ≤ L →
    (matchTokens level distance L).1.length ≤ (matchTokens level distance L).2

/-! ## The steps of COMPRESS -/

/-- 44_dispatcher.md R200, R201, 60_exceptions.md R221, 70_reset_and_hazards.md R251: the start of COMPRESS. -/
def Obligations.CompressStartsByItsRule : Prop :=
  ∀ s : State, CoreTurn s .compress .start →
    (s.inLen = 0 → EndsWith .emptyInput s (step s)) ∧
    (1 ≤ s.inLen →
      ∃ t, step s = .next t ∧
        t = { s with level := t.level, ht := [], ip := 0, op := 0, anchor := 0, first := t.first, seq := .body,
                     draws := t.draws } ∧
        (t.level = .one ↔ s.inLen < 65536) ∧ ∀ h, readSlot t h = 0)

/-- 40_match_finder.md R112: one scan position. Without a match it only writes the slot and moves IP by one; with a match
it emits the pending run and the match tokens, and moves past what they cover. -/
def Obligations.ScanStepByItsRule : Prop :=
  ∀ s : State, ScanTurn s →
    ((find s s.ip).1 = .noMatch →
      ∃ t, step s = .next t ∧ t = { s with ip := s.ip + 1, ht := t.ht } ∧
        ∀ h, readSlot t h = if h = hashAt s s.ip then s.ip else readSlot s h) ∧
    (∀ distance L : Nat, (find s s.ip).1 = .matched distance L →
      s.op + (literalBytes (pendingRun s s.ip)).length + (matchTokens s.level distance L).1.length ≤ s.outCap →
      ∃ t, step s = .next t ∧
        t = { s with ip := t.ip, anchor := t.ip, op := t.op, outMem := t.outMem, ht := t.ht } ∧
        t.ip = s.ip + (matchTokens s.level distance L).2 ∧
        (∀ h, readSlot t h = if h = hashAt s s.ip then s.ip else readSlot s h) ∧
        WritesChunk s t (literalBytes (pendingRun s s.ip) ++ (matchTokens s.level distance L).1))

/-- 40_match_finder.md R114, 44_dispatcher.md R202: the end of a COMPRESS: the pending run is emitted and the level tag
ORed into byte 0. -/
def Obligations.CompressEndsByItsRule : Prop :=
  ∀ s : State, FinishTurn s → s.op + (literalBytes (pendingRun s s.inLen)).length ≤ s.outCap →
    ∃ t, step s = .next t ∧
      t = { s with op := t.op, outMem := t.outMem, outLen := t.op, code := .ok, phase := .done } ∧
      t.op = s.op + (literalBytes (pendingRun s s.inLen)).length ∧
      (∀ k : Fin (literalBytes (pendingRun s s.inLen)).length, readOut t (s.op + k) =
        if s.op + k = 0 then (literalBytes (pendingRun s s.inLen))[k] ||| BitVec.ofNat 8 ((s.level.number - 1) <<< 5)
        else (literalBytes (pendingRun s s.inLen))[k]) ∧
      (∀ a, a < s.op ∨ t.op ≤ a → readOut t a =
        if a = 0 then readOut s 0 ||| BitVec.ofNat 8 ((s.level.number - 1) <<< 5) else readOut s a)

/-- 40_match_finder.md R115: COMPRESS ends after at most `IN_LEN - 3` scan steps and one end step, with code OK. -/
def Obligations.CompressTerminatesWithOk : Prop :=
  ∀ s : State, Inv s → CoreTurn s .compress .start → 1 ≤ s.inLen →
    ∃ k t, k ≤ 1 + ((s.inLen - 3) + 1) ∧ Host.Core.run Sys2Proof.core k s = .next t ∧
      t.phase = .done ∧ t.code = .ok ∧ t.outLen ≤ 2 * s.inLen

/-- 44_dispatcher.md R206: DECOMPRESS ends after at most `⌈IN_LEN / 2⌉` token steps and its end. -/
def Obligations.DecompressTerminates : Prop :=
  ∀ s : State, CoreTurn s .decompress .start → 1 ≤ s.inLen →
    ∃ k t, k ≤ 1 + ((s.inLen + 1) / 2 + 1) ∧ Host.Core.run Sys2Proof.core k s = .next t ∧ t.phase = .done

/-! ## The host -/

/-- 70_reset_and_hazards.md R251, 10_state.md R41: a CMD write that starts a command. What the command leaves unspecified
from here on is the model's choice (log 10). -/
def Obligations.CmdWriteStartsTheCommand : Prop :=
  ∀ (s : State) (v : Nat) (rest : List HostOp), s.phase ≠ .busy → s.host = .writeCmd v :: rest →
    (v = 2 ∨ (v = 1 ∧ 2 * s.inLen ≤ s.outCap)) →
    ∃ t, step s = .next t ∧ t.phase = .busy ∧ statusDone t = false ∧ t.seq = .start ∧
      t.cmd = (if v = 1 then .compress else .decompress) ∧
      t = { s with cmd := t.cmd, phase := t.phase, seq := t.seq, host := rest, level := t.level, outLen := t.outLen,
                   outMem := t.outMem, outFill := t.outFill, draws := t.draws,
                   anchor := if v = 1 then s.anchor else t.anchor, first := if v = 1 then t.first else s.first }

/-- 60_exceptions.md R235, R237: the CMD writes the model refuses. -/
def Obligations.CmdWritesRefused : Prop :=
  ∀ (s : State) (v : Nat) (rest : List HostOp), s.host = .writeCmd v :: rest →
    (s.phase = .busy → step s = .refused .commandWhileBusy) ∧
    (s.phase ≠ .busy → v ≠ 1 → v ≠ 2 → step s = .refused .badCommand) ∧
    (s.phase ≠ .busy → v = 1 → s.outCap < 2 * s.inLen → step s = .refused .compressOutCapTooSmall)

/-- 20_memory.md R61, 60_exceptions.md R235: a host write while BUSY has no meaning; otherwise it writes what it names. A write
at an address is the write of the one thing IFACE_MAP places there, whatever the placement (00_scope.md R10; the model's
choice, log 18). -/
def Obligations.HostWritesOnlyOutsideBusy : Prop :=
  ∀ (s : State) (rest : List HostOp) (i n : Nat) (b : Byte),
    (s.phase = .busy → ∀ h ∈ [HostOp.writeIn i b, .writeOut i b, .writeInLen n, .writeOutCap n],
      step { s with host := h :: rest } = .refused .hostWriteWhileBusy) ∧
    (s.phase ≠ .busy →
      step { s with host := .writeInLen n :: rest } = .next { s with host := rest, inLen := n } ∧
      step { s with host := .writeOutCap n :: rest } = .next { s with host := rest, outCap := n } ∧
      (∃ t, step { s with host := .writeIn i b :: rest } = .next t ∧ t = { s with host := rest, inMem := t.inMem } ∧
        ∀ a, readIn t a = if a = i then b else readIn s a) ∧
      (∃ t, step { s with host := .writeOut i b :: rest } = .next t ∧ t = { s with host := rest, outMem := t.outMem } ∧
        ∀ a, readOut t a = if a = i then b else readOut s a)) ∧
    (∀ a v : Nat, step { s with host := .writeAt a v :: rest } =
      (match targetAt s.iface a with
       | some .cmd => step { s with host := .writeCmd v :: rest }
       | some .inLen => step { s with host := .writeInLen v :: rest }
       | some .outCap => step { s with host := .writeOutCap v :: rest }
       | some (.inByte k) =>
         if v < 256 then step { s with host := .writeIn k (BitVec.ofNat 8 v) :: rest } else .refused .notAByte
       | some (.outByte k) =>
         if v < 256 then step { s with host := .writeOut k (BitVec.ofNat 8 v) :: rest } else .refused .notAByte
       | some .status => .refused .readOnlyRegister
       | some .outLen => .refused .readOnlyRegister
       | none => .refused .nothingPlaced))

/-- 70_reset_and_hazards.md R250: what the spec says reset leaves; the core then waits. -/
def Obligations.ResetLeavesIdle : Prop :=
  State.reset.phase = .idle ∧ State.reset.code = .ok ∧ statusDone State.reset = false ∧ State.reset.cmd = .none ∧
    statusWord State.reset = 0 ∧ step State.reset = .next State.reset

/-- 70_reset_and_hazards.md R253: a reset abandons a running command. -/
def Obligations.ResetAbandonsTheCommand : Prop :=
  ∀ (s : State) (rest : List HostOp), s.host = .reset :: rest →
    ∃ t, step s = .next t ∧ t.phase = .idle ∧ t.cmd = .none ∧ t.code = .ok ∧ statusWord t = 0 ∧
      t.outMem = [] ∧ t.inMem = [] ∧ t.host = rest ∧ t.hash = s.hash ∧ t.iface = s.iface

/-- 70_reset_and_hazards.md R250: outside BUSY the core waits. -/
def Obligations.CoreWaitsOutsideBusy : Prop :=
  ∀ s : State, s.host = [] → s.phase ≠ .busy → step s = .next s

/-- 10_state.md R35: STATUS holds the code in bits 1:0, done in bit 2, and 0 above. -/
def Obligations.StatusFields : Prop :=
  ∀ s : State, statusWord s < 8 ∧ statusWord s % 4 = codeNumber s.code ∧
    (statusWord s / 4 = 1 ↔ s.phase = .done) ∧
    (codeNumber .ok = 0 ∧ codeNumber .emptyInput = 1 ∧ codeNumber .corruptStream = 2 ∧ codeNumber .unknownLevel = 3)

/-! ## The whole machine -/

/-- The invariant holds at reset. -/
def Obligations.InvHoldsAtReset : Prop := Inv State.reset

/-- 10_state.md R22, R23, R24, R30, R36, 20_memory.md R50, 44_dispatcher.md R203, R204: every step keeps the invariant. -/
def Obligations.StepKeepsInv : Prop := ∀ s t : State, Inv s → step s = .next t → Inv t

/-- 60_exceptions.md R236 and its introduction: no step from a state of the invariant faults, whatever the host does. -/
def Obligations.NoStepFaults : Prop := ∀ (s : State) (f : Fault), Inv s → step s ≠ .fault f

/-- 20_memory.md R51, R61: the core never writes IN, nor the registers only the host writes. -/
def Obligations.CoreNeverWritesIn : Prop :=
  ∀ s t : State, s.host = [] → step s = .next t →
    t.inMem = s.inMem ∧ t.inFill = s.inFill ∧ t.inLen = s.inLen ∧ t.outCap = s.outCap ∧ t.cmd = s.cmd ∧
      t.hash = s.hash ∧ t.iface = s.iface ∧ t.host = []

/-- 10_state.md R22, R23, R25: within a command LEVEL stays, IP and OP never decrease, and IP never exceeds IN_LEN. -/
def Obligations.CommandOnlyAdvances : Prop :=
  ∀ (s t : State) (c : Command), CoreTurn s c .body → step s = .next t →
    t.level = s.level ∧ s.ip ≤ t.ip ∧ s.op ≤ t.op ∧ (s.ip ≤ s.inLen → t.ip ≤ t.inLen)

/-- 20_memory.md R55, 70_reset_and_hazards.md R256: no step of the core depends on a byte of IN at or past IN_LEN. -/
def Obligations.CoreReadsOnlyInsideIn : Prop :=
  ∀ (s t : State) (mem : List Host.Cell) (fill : Nat), s.host = [] →
    (∀ i < s.inLen, readIn { s with inMem := mem, inFill := fill } i = readIn s i) →
    step s = .next t →
    step { s with inMem := mem, inFill := fill } = .next { t with inMem := mem, inFill := fill }

/-- 20_memory.md R66, 70_reset_and_hazards.md R251: a command's start forgets the cursors, LEVEL, FIRST and the table of
the command before it. -/
def Obligations.CommandStartForgetsTheLastOne : Prop :=
  ∀ (s : State) (ip op anchor : Nat) (level : Level) (first : Bool) (table : List Slot), 1 ≤ s.inLen →
    (CoreTurn s .compress .start →
      step { s with ip := ip, op := op, anchor := anchor, level := level, first := first, ht := table } = step s) ∧
    (CoreTurn s .decompress .start → (readIn s 0).toNat < 0x40 →
      step { s with ip := ip, op := op, anchor := anchor, level := level, first := first } = step s)

/-- 44_dispatcher.md R210: COMPRESS then DECOMPRESS gives the input back, for every HASH. -/
def Obligations.CompressThenDecompressGivesTheInput : Prop :=
  ∀ (s : State) (input : List Byte) (cap1 cap2 : Nat), s.phase ≠ .busy → input ≠ [] →
    2 * input.length ≤ cap1 → input.length ≤ cap2 →
    ∃ s1 s2 stream, CommandReaches s 1 input cap1 s1 ∧ result? s1 = some stream ∧
      CommandReaches s1 2 stream cap2 s2 ∧ result? s2 = some input
end

