-- ==== Sys2Proof/Laws/Memory.lean ====
section
/-! SUPPORT. The laws of the memories: read after write, and the canonical form. -/

namespace Sys2Proof.Machine

variable {α : Type}

theorem Memory.read_write_same (m : List (Nat × α)) (a : Nat) (v : α) :
    Memory.read (Memory.write m a v) a = some v := by
  induction m with
  | nil => simp [Memory.write, Memory.read]
  | cons e m ih =>
    obtain ⟨b, w⟩ := e
    simp only [Memory.write]
    split
    · simp [Memory.read]
    · split
      · simp [Memory.read]
      · simp [Memory.read, *]

theorem Memory.read_write_other (m : List (Nat × α)) {a c : Nat} (v : α) (h : c ≠ a) :
    Memory.read (Memory.write m a v) c = Memory.read m c := by
  induction m with
  | nil => simp [Memory.write, Memory.read, h]
  | cons e m ih =>
    obtain ⟨b, w⟩ := e
    simp only [Memory.write]
    split
    · simp [Memory.read, h]
    · split
      · next hab => subst hab; simp [Memory.read, h]
      · simp [Memory.read, ih]

theorem Memory.read_write (m : List (Nat × α)) (a c : Nat) (v : α) :
    Memory.read (Memory.write m a v) c = if c = a then some v else Memory.read m c := by
  split
  · next h => rw [h, Memory.read_write_same]
  · next h => exact Memory.read_write_other m v h

theorem Memory.read_erase (m : List (Nat × α)) (a c : Nat) :
    Memory.read (Memory.erase m a) c = if c = a then none else Memory.read m c := by
  induction m with
  | nil => simp [Memory.erase, Memory.read]
  | cons e m ih =>
    obtain ⟨b, w⟩ := e
    unfold Memory.erase at ih ⊢
    by_cases hb : b = a
    · subst hb
      simp only [List.filter_cons, bne_self_eq_false, Bool.false_eq_true, if_false, ih, Memory.read]
      split <;> rfl
    · simp only [List.filter_cons, bne_iff_ne, ne_eq, hb, not_false_eq_true, if_true, Memory.read, ih]
      by_cases hc : c = b
      · subst hc; simp [hb]
      · simp [hc]

/-- The indices of a write are the old ones and the new one. -/
theorem Memory.mem_write {m : List (Nat × α)} {a : Nat} {v : α} {e : Nat × α}
    (h : e ∈ Memory.write m a v) : e = (a, v) ∨ e ∈ m := by
  induction m with
  | nil => simpa [Memory.write] using h
  | cons x m ih =>
    obtain ⟨b, w⟩ := x
    simp only [Memory.write] at h
    split at h
    · simpa using h
    · split at h
      · rcases List.mem_cons.1 h with h | h
        · exact .inl h
        · exact .inr (by simp [h])
      · rcases List.mem_cons.1 h with h | h
        · exact .inr (by simp [h])
        · rcases ih h with h | h
          · exact .inl h
          · exact .inr (by simp [h])

theorem Memory.wf_cons {b : Nat} {w : α} {m : List (Nat × α)} :
    Memory.wf ((b, w) :: m) ↔ (∀ e ∈ m, b < e.1) ∧ Memory.wf m := by
  simp [Memory.wf, List.pairwise_cons]

theorem Memory.wf_write {m : List (Nat × α)} (h : Memory.wf m) (a : Nat) (v : α) :
    Memory.wf (Memory.write m a v) := by
  induction m with
  | nil => simp [Memory.write, Memory.wf]
  | cons e m ih =>
    obtain ⟨b, w⟩ := e
    have hb := (Memory.wf_cons.1 h).1
    simp only [Memory.write]
    split
    · next hab =>
      refine Memory.wf_cons.2 ⟨fun e he => ?_, h⟩
      rcases List.mem_cons.1 he with rfl | he
      · exact hab
      · exact hab.trans (hb e he)
    · split
      · next hab => subst hab; exact Memory.wf_cons.2 ⟨hb, (Memory.wf_cons.1 h).2⟩
      · refine Memory.wf_cons.2 ⟨fun e he => ?_, ih (Memory.wf_cons.1 h).2⟩
        rcases Memory.mem_write he with rfl | he
        · show b < a; omega
        · exact hb e he

theorem Memory.wf_erase {m : List (Nat × α)} (h : Memory.wf m) (a : Nat) : Memory.wf (Memory.erase m a) :=
  List.Pairwise.sublist (List.Sublist.map _ List.filter_sublist) h

theorem Memory.wf_writeAll {m : List (Nat × α)} (h : Memory.wf m) (a : Nat) (vs : List α) :
    Memory.wf (Memory.writeAll m a vs) := by
  induction vs generalizing m a with
  | nil => exact h
  | cons v vs ih => exact ih (Memory.wf_write h a v) (a + 1)

theorem Memory.wf_copy {m : List (Nat × α)} (h : Memory.wf m) (fill : Nat → α) (src dst n : Nat) :
    Memory.wf (Memory.copy fill m src dst n) := by
  induction n generalizing m src dst with
  | zero => exact h
  | succ n ih => exact ih (Memory.wf_write h dst _) (src + 1) (dst + 1)

/-- What a run of writes leaves at an index: the value written there, or what was there. -/
theorem Memory.read_writeAll (m : List (Nat × α)) (a : Nat) (vs : List α) (c : Nat) :
    Memory.read (Memory.writeAll m a vs) c =
      if a ≤ c ∧ c < a + vs.length then vs[c - a]? else Memory.read m c := by
  induction vs generalizing m a with
  | nil => simp [Memory.writeAll]
  | cons v vs ih =>
    rw [Memory.writeAll, ih, Memory.read_write]
    by_cases h1 : a + 1 ≤ c ∧ c < a + 1 + vs.length
    · have e : c - a = c - (a + 1) + 1 := by omega
      rw [if_pos h1, if_pos (by simp; omega), e, List.getElem?_cons_succ]
    · rw [if_neg h1]
      by_cases h2 : c = a
      · subst h2; rw [if_pos rfl, if_pos (by simp)]; simp
      · rw [if_neg h2, if_neg (by simp; omega)]

/-- A copy leaves every index outside its destination. -/
theorem Memory.read_copy_outside (fill : Nat → α) (m : List (Nat × α)) (src dst n c : Nat)
    (h : c < dst ∨ dst + n ≤ c) : Memory.read (Memory.copy fill m src dst n) c = Memory.read m c := by
  induction n generalizing m src dst with
  | zero => rfl
  | succ n ih =>
    rw [Memory.copy, ih _ _ _ (by omega), Memory.read_write_other]
    omega

/-- Each index of the destination is written with what the index `dst - src` before it holds after the copy. -/
theorem Memory.read_copy_inside (fill : Nat → α) (m : List (Nat × α)) (src dst n k : Nat)
    (hs : src < dst) (hk : k < n) :
    Memory.read (Memory.copy fill m src dst n) (dst + k) =
      some ((Memory.read (Memory.copy fill m src dst n) (src + k)).getD (fill (src + k))) := by
  induction n generalizing m src dst k with
  | zero => omega
  | succ n ih =>
    rw [Memory.copy]
    cases k with
    | zero =>
      simp only [Nat.add_zero]
      rw [Memory.read_copy_outside _ _ _ _ _ _ (by omega), Memory.read_write_same,
        Memory.read_copy_outside _ _ _ _ _ _ (by omega), Memory.read_write_other _ _ (by omega)]
    | succ k =>
      have := ih (Memory.write m dst ((Memory.read m src).getD (fill src))) (src + 1) (dst + 1) k (by omega) (by omega)
      rwa [show dst + 1 + k = dst + (k + 1) by omega, show src + 1 + k = src + (k + 1) by omega] at this

theorem slotsWf_nil : slotsWf [] := by simp [slotsWf, Memory.wf]

theorem slotsWf_writeSlot {s : State} (h : slotsWf s.ht) {i : Nat} (hi : i < Config.hashSize) (v : Nat) :
    slotsWf (writeSlot s i v).ht := by
  unfold writeSlot
  split
  · exact ⟨Memory.wf_erase h.1 i, fun e he => h.2 e (List.mem_of_mem_filter he)⟩
  · next hv =>
    refine ⟨Memory.wf_write h.1 i v, fun e he => ?_⟩
    rcases Memory.mem_write he with rfl | he
    · exact ⟨hi, hv⟩
    · exact h.2 e he

/-- HT after a slot write (20_memory.md R60). -/
theorem readSlot_writeSlot (s : State) (i j : Nat) (v : Nat) :
    readSlot (writeSlot s i v) j = if j = i then v else readSlot s j := by
  unfold readSlot writeSlot
  by_cases hv : v = 0
  · subst hv
    simp only [if_true, Memory.read_erase]
    split <;> rfl
  · simp only [if_neg hv, Memory.read_write]
    split <;> rfl

end Sys2Proof.Machine
end

