-- ==== Sys2Proof/Laws/State.lean ====
section
/-! SUPPORT. One lemma per field per named update of State, each true by rfl. -/

namespace Sys2Proof.Machine

variable (s : State)

/-! writeOut -/

@[simp] theorem writeOut_cmd (i : Nat) (b : Byte) : (writeOut s i b).cmd = s.cmd := rfl
@[simp] theorem writeOut_inLen (i : Nat) (b : Byte) : (writeOut s i b).inLen = s.inLen := rfl
@[simp] theorem writeOut_outCap (i : Nat) (b : Byte) : (writeOut s i b).outCap = s.outCap := rfl
@[simp] theorem writeOut_code (i : Nat) (b : Byte) : (writeOut s i b).code = s.code := rfl
@[simp] theorem writeOut_outLen (i : Nat) (b : Byte) : (writeOut s i b).outLen = s.outLen := rfl
@[simp] theorem writeOut_phase (i : Nat) (b : Byte) : (writeOut s i b).phase = s.phase := rfl
@[simp] theorem writeOut_ip (i : Nat) (b : Byte) : (writeOut s i b).ip = s.ip := rfl
@[simp] theorem writeOut_op (i : Nat) (b : Byte) : (writeOut s i b).op = s.op := rfl
@[simp] theorem writeOut_anchor (i : Nat) (b : Byte) : (writeOut s i b).anchor = s.anchor := rfl
@[simp] theorem writeOut_level (i : Nat) (b : Byte) : (writeOut s i b).level = s.level := rfl
@[simp] theorem writeOut_first (i : Nat) (b : Byte) : (writeOut s i b).first = s.first := rfl
@[simp] theorem writeOut_inMem (i : Nat) (b : Byte) : (writeOut s i b).inMem = s.inMem := rfl
@[simp] theorem writeOut_outMem (i : Nat) (b : Byte) : (writeOut s i b).outMem = Memory.write s.outMem i b := rfl
@[simp] theorem writeOut_ht (i : Nat) (b : Byte) : (writeOut s i b).ht = s.ht := rfl
@[simp] theorem writeOut_hash (i : Nat) (b : Byte) : (writeOut s i b).hash = s.hash := rfl
@[simp] theorem writeOut_iface (i : Nat) (b : Byte) : (writeOut s i b).iface = s.iface := rfl
@[simp] theorem writeOut_seq (i : Nat) (b : Byte) : (writeOut s i b).seq = s.seq := rfl
@[simp] theorem writeOut_host (i : Nat) (b : Byte) : (writeOut s i b).host = s.host := rfl
@[simp] theorem writeOut_inFill (i : Nat) (b : Byte) : (writeOut s i b).inFill = s.inFill := rfl
@[simp] theorem writeOut_outFill (i : Nat) (b : Byte) : (writeOut s i b).outFill = s.outFill := rfl
@[simp] theorem writeOut_draws (i : Nat) (b : Byte) : (writeOut s i b).draws = s.draws := rfl

/-! emitBytes -/

@[simp] theorem emitBytes_cmd (bs : List Byte) : (emitBytes bs s).cmd = s.cmd := rfl
@[simp] theorem emitBytes_inLen (bs : List Byte) : (emitBytes bs s).inLen = s.inLen := rfl
@[simp] theorem emitBytes_outCap (bs : List Byte) : (emitBytes bs s).outCap = s.outCap := rfl
@[simp] theorem emitBytes_code (bs : List Byte) : (emitBytes bs s).code = s.code := rfl
@[simp] theorem emitBytes_outLen (bs : List Byte) : (emitBytes bs s).outLen = s.outLen := rfl
@[simp] theorem emitBytes_phase (bs : List Byte) : (emitBytes bs s).phase = s.phase := rfl
@[simp] theorem emitBytes_ip (bs : List Byte) : (emitBytes bs s).ip = s.ip := rfl
@[simp] theorem emitBytes_op (bs : List Byte) : (emitBytes bs s).op = s.op + bs.length := rfl
@[simp] theorem emitBytes_anchor (bs : List Byte) : (emitBytes bs s).anchor = s.anchor := rfl
@[simp] theorem emitBytes_level (bs : List Byte) : (emitBytes bs s).level = s.level := rfl
@[simp] theorem emitBytes_first (bs : List Byte) : (emitBytes bs s).first = s.first := rfl
@[simp] theorem emitBytes_inMem (bs : List Byte) : (emitBytes bs s).inMem = s.inMem := rfl
@[simp] theorem emitBytes_outMem (bs : List Byte) : (emitBytes bs s).outMem = Memory.writeAll s.outMem s.op bs := rfl
@[simp] theorem emitBytes_ht (bs : List Byte) : (emitBytes bs s).ht = s.ht := rfl
@[simp] theorem emitBytes_hash (bs : List Byte) : (emitBytes bs s).hash = s.hash := rfl
@[simp] theorem emitBytes_iface (bs : List Byte) : (emitBytes bs s).iface = s.iface := rfl
@[simp] theorem emitBytes_seq (bs : List Byte) : (emitBytes bs s).seq = s.seq := rfl
@[simp] theorem emitBytes_host (bs : List Byte) : (emitBytes bs s).host = s.host := rfl
@[simp] theorem emitBytes_inFill (bs : List Byte) : (emitBytes bs s).inFill = s.inFill := rfl
@[simp] theorem emitBytes_outFill (bs : List Byte) : (emitBytes bs s).outFill = s.outFill := rfl
@[simp] theorem emitBytes_draws (bs : List Byte) : (emitBytes bs s).draws = s.draws := rfl

/-! writeSlot -/

@[simp] theorem writeSlot_cmd (h v : Nat) : (writeSlot s h v).cmd = s.cmd := rfl
@[simp] theorem writeSlot_inLen (h v : Nat) : (writeSlot s h v).inLen = s.inLen := rfl
@[simp] theorem writeSlot_outCap (h v : Nat) : (writeSlot s h v).outCap = s.outCap := rfl
@[simp] theorem writeSlot_code (h v : Nat) : (writeSlot s h v).code = s.code := rfl
@[simp] theorem writeSlot_outLen (h v : Nat) : (writeSlot s h v).outLen = s.outLen := rfl
@[simp] theorem writeSlot_phase (h v : Nat) : (writeSlot s h v).phase = s.phase := rfl
@[simp] theorem writeSlot_ip (h v : Nat) : (writeSlot s h v).ip = s.ip := rfl
@[simp] theorem writeSlot_op (h v : Nat) : (writeSlot s h v).op = s.op := rfl
@[simp] theorem writeSlot_anchor (h v : Nat) : (writeSlot s h v).anchor = s.anchor := rfl
@[simp] theorem writeSlot_level (h v : Nat) : (writeSlot s h v).level = s.level := rfl
@[simp] theorem writeSlot_first (h v : Nat) : (writeSlot s h v).first = s.first := rfl
@[simp] theorem writeSlot_inMem (h v : Nat) : (writeSlot s h v).inMem = s.inMem := rfl
@[simp] theorem writeSlot_outMem (h v : Nat) : (writeSlot s h v).outMem = s.outMem := rfl
@[simp] theorem writeSlot_ht (h v : Nat) : (writeSlot s h v).ht = if v = 0 then Memory.erase s.ht h else Memory.write s.ht h v := rfl
@[simp] theorem writeSlot_hash (h v : Nat) : (writeSlot s h v).hash = s.hash := rfl
@[simp] theorem writeSlot_iface (h v : Nat) : (writeSlot s h v).iface = s.iface := rfl
@[simp] theorem writeSlot_seq (h v : Nat) : (writeSlot s h v).seq = s.seq := rfl
@[simp] theorem writeSlot_host (h v : Nat) : (writeSlot s h v).host = s.host := rfl
@[simp] theorem writeSlot_inFill (h v : Nat) : (writeSlot s h v).inFill = s.inFill := rfl
@[simp] theorem writeSlot_outFill (h v : Nat) : (writeSlot s h v).outFill = s.outFill := rfl
@[simp] theorem writeSlot_draws (h v : Nat) : (writeSlot s h v).draws = s.draws := rfl

/-! forgetOut -/

@[simp] theorem forgetOut_cmd : (forgetOut s).cmd = s.cmd := rfl
@[simp] theorem forgetOut_inLen : (forgetOut s).inLen = s.inLen := rfl
@[simp] theorem forgetOut_outCap : (forgetOut s).outCap = s.outCap := rfl
@[simp] theorem forgetOut_code : (forgetOut s).code = s.code := rfl
@[simp] theorem forgetOut_outLen : (forgetOut s).outLen = Config.freeOutLen s.draws := rfl
@[simp] theorem forgetOut_phase : (forgetOut s).phase = s.phase := rfl
@[simp] theorem forgetOut_ip : (forgetOut s).ip = s.ip := rfl
@[simp] theorem forgetOut_op : (forgetOut s).op = s.op := rfl
@[simp] theorem forgetOut_anchor : (forgetOut s).anchor = s.anchor := rfl
@[simp] theorem forgetOut_level : (forgetOut s).level = s.level := rfl
@[simp] theorem forgetOut_first : (forgetOut s).first = s.first := rfl
@[simp] theorem forgetOut_inMem : (forgetOut s).inMem = s.inMem := rfl
@[simp] theorem forgetOut_outMem : (forgetOut s).outMem = [] := rfl
@[simp] theorem forgetOut_ht : (forgetOut s).ht = s.ht := rfl
@[simp] theorem forgetOut_hash : (forgetOut s).hash = s.hash := rfl
@[simp] theorem forgetOut_iface : (forgetOut s).iface = s.iface := rfl
@[simp] theorem forgetOut_seq : (forgetOut s).seq = s.seq := rfl
@[simp] theorem forgetOut_host : (forgetOut s).host = s.host := rfl
@[simp] theorem forgetOut_inFill : (forgetOut s).inFill = s.inFill := rfl
@[simp] theorem forgetOut_outFill : (forgetOut s).outFill = s.draws := rfl
@[simp] theorem forgetOut_draws : (forgetOut s).draws = s.draws + 1 := rfl

/-! succeed -/

@[simp] theorem succeed_cmd : (succeed s).cmd = s.cmd := rfl
@[simp] theorem succeed_inLen : (succeed s).inLen = s.inLen := rfl
@[simp] theorem succeed_outCap : (succeed s).outCap = s.outCap := rfl
@[simp] theorem succeed_code : (succeed s).code = .ok := rfl
@[simp] theorem succeed_outLen : (succeed s).outLen = s.op := rfl
@[simp] theorem succeed_phase : (succeed s).phase = .done := rfl
@[simp] theorem succeed_ip : (succeed s).ip = s.ip := rfl
@[simp] theorem succeed_op : (succeed s).op = s.op := rfl
@[simp] theorem succeed_anchor : (succeed s).anchor = s.anchor := rfl
@[simp] theorem succeed_level : (succeed s).level = s.level := rfl
@[simp] theorem succeed_first : (succeed s).first = s.first := rfl
@[simp] theorem succeed_inMem : (succeed s).inMem = s.inMem := rfl
@[simp] theorem succeed_outMem : (succeed s).outMem = s.outMem := rfl
@[simp] theorem succeed_ht : (succeed s).ht = s.ht := rfl
@[simp] theorem succeed_hash : (succeed s).hash = s.hash := rfl
@[simp] theorem succeed_iface : (succeed s).iface = s.iface := rfl
@[simp] theorem succeed_seq : (succeed s).seq = s.seq := rfl
@[simp] theorem succeed_host : (succeed s).host = s.host := rfl
@[simp] theorem succeed_inFill : (succeed s).inFill = s.inFill := rfl
@[simp] theorem succeed_outFill : (succeed s).outFill = s.outFill := rfl
@[simp] theorem succeed_draws : (succeed s).draws = s.draws := rfl

/-! clearFirst -/

@[simp] theorem clearFirst_cmd : (clearFirst s).cmd = s.cmd := rfl
@[simp] theorem clearFirst_inLen : (clearFirst s).inLen = s.inLen := rfl
@[simp] theorem clearFirst_outCap : (clearFirst s).outCap = s.outCap := rfl
@[simp] theorem clearFirst_code : (clearFirst s).code = s.code := rfl
@[simp] theorem clearFirst_outLen : (clearFirst s).outLen = s.outLen := rfl
@[simp] theorem clearFirst_phase : (clearFirst s).phase = s.phase := rfl
@[simp] theorem clearFirst_ip : (clearFirst s).ip = s.ip := rfl
@[simp] theorem clearFirst_op : (clearFirst s).op = s.op := rfl
@[simp] theorem clearFirst_anchor : (clearFirst s).anchor = s.anchor := rfl
@[simp] theorem clearFirst_level : (clearFirst s).level = s.level := rfl
@[simp] theorem clearFirst_first : (clearFirst s).first = false := rfl
@[simp] theorem clearFirst_inMem : (clearFirst s).inMem = s.inMem := rfl
@[simp] theorem clearFirst_outMem : (clearFirst s).outMem = s.outMem := rfl
@[simp] theorem clearFirst_ht : (clearFirst s).ht = s.ht := rfl
@[simp] theorem clearFirst_hash : (clearFirst s).hash = s.hash := rfl
@[simp] theorem clearFirst_iface : (clearFirst s).iface = s.iface := rfl
@[simp] theorem clearFirst_seq : (clearFirst s).seq = s.seq := rfl
@[simp] theorem clearFirst_host : (clearFirst s).host = s.host := rfl
@[simp] theorem clearFirst_inFill : (clearFirst s).inFill = s.inFill := rfl
@[simp] theorem clearFirst_outFill : (clearFirst s).outFill = s.outFill := rfl
@[simp] theorem clearFirst_draws : (clearFirst s).draws = s.draws := rfl

/-! startTokens -/

@[simp] theorem startTokens_cmd : (startTokens s).cmd = s.cmd := rfl
@[simp] theorem startTokens_inLen : (startTokens s).inLen = s.inLen := rfl
@[simp] theorem startTokens_outCap : (startTokens s).outCap = s.outCap := rfl
@[simp] theorem startTokens_code : (startTokens s).code = s.code := rfl
@[simp] theorem startTokens_outLen : (startTokens s).outLen = s.outLen := rfl
@[simp] theorem startTokens_phase : (startTokens s).phase = s.phase := rfl
@[simp] theorem startTokens_ip : (startTokens s).ip = 0 := rfl
@[simp] theorem startTokens_op : (startTokens s).op = 0 := rfl
@[simp] theorem startTokens_anchor : (startTokens s).anchor = Config.freeAnchor s.draws := rfl
@[simp] theorem startTokens_level : (startTokens s).level = levelOfTag (highBits (readIn s 0)) := rfl
@[simp] theorem startTokens_first : (startTokens s).first = true := rfl
@[simp] theorem startTokens_inMem : (startTokens s).inMem = s.inMem := rfl
@[simp] theorem startTokens_outMem : (startTokens s).outMem = s.outMem := rfl
@[simp] theorem startTokens_ht : (startTokens s).ht = s.ht := rfl
@[simp] theorem startTokens_hash : (startTokens s).hash = s.hash := rfl
@[simp] theorem startTokens_iface : (startTokens s).iface = s.iface := rfl
@[simp] theorem startTokens_seq : (startTokens s).seq = .body := rfl
@[simp] theorem startTokens_host : (startTokens s).host = s.host := rfl
@[simp] theorem startTokens_inFill : (startTokens s).inFill = s.inFill := rfl
@[simp] theorem startTokens_outFill : (startTokens s).outFill = s.outFill := rfl
@[simp] theorem startTokens_draws : (startTokens s).draws = s.draws + 1 := rfl

/-! launch -/

@[simp] theorem launch_cmd (c : Command) : (launch c s).cmd = c := rfl
@[simp] theorem launch_inLen (c : Command) : (launch c s).inLen = s.inLen := rfl
@[simp] theorem launch_outCap (c : Command) : (launch c s).outCap = s.outCap := rfl
@[simp] theorem launch_code (c : Command) : (launch c s).code = s.code := rfl
@[simp] theorem launch_outLen (c : Command) : (launch c s).outLen = Config.freeOutLen s.draws := rfl
@[simp] theorem launch_phase (c : Command) : (launch c s).phase = .busy := rfl
@[simp] theorem launch_ip (c : Command) : (launch c s).ip = s.ip := rfl
@[simp] theorem launch_op (c : Command) : (launch c s).op = s.op := rfl
@[simp] theorem launch_anchor (c : Command) : (launch c s).anchor = if c = .decompress then Config.freeAnchor s.draws else s.anchor := rfl
@[simp] theorem launch_level (c : Command) : (launch c s).level = Config.freeLevel s.draws := rfl
@[simp] theorem launch_first (c : Command) : (launch c s).first = if c = .compress then Config.freeFirst s.draws else s.first := rfl
@[simp] theorem launch_inMem (c : Command) : (launch c s).inMem = s.inMem := rfl
@[simp] theorem launch_outMem (c : Command) : (launch c s).outMem = [] := rfl
@[simp] theorem launch_ht (c : Command) : (launch c s).ht = s.ht := rfl
@[simp] theorem launch_hash (c : Command) : (launch c s).hash = s.hash := rfl
@[simp] theorem launch_iface (c : Command) : (launch c s).iface = s.iface := rfl
@[simp] theorem launch_seq (c : Command) : (launch c s).seq = .start := rfl
@[simp] theorem launch_host (c : Command) : (launch c s).host = s.host := rfl
@[simp] theorem launch_inFill (c : Command) : (launch c s).inFill = s.inFill := rfl
@[simp] theorem launch_outFill (c : Command) : (launch c s).outFill = s.draws := rfl
@[simp] theorem launch_draws (c : Command) : (launch c s).draws = s.draws + 1 := rfl

end Sys2Proof.Machine
end

