-- ==== Sys2Proof/Laws/Ops.lean ====
section
/-! SUPPORT. For each shared operation, one lemma that says everything it can do. -/

namespace Sys2Proof.Machine

/-- The end of a command on error, as one state. -/
theorem raise_eq (e : ErrorKind) (s : State) :
    raise e s = .next { s with
      code := errorCode e, phase := .done, outMem := [], outFill := s.draws
      outLen := Config.freeOutLen s.draws, draws := s.draws + 1 } := rfl

theorem withinOut_cases (s : State) :
    (s.op ≤ s.outCap ∧ withinOut s = .next s) ∨ (s.outCap < s.op ∧ withinOut s = .fault .outOverrun) := by
  unfold withinOut
  split
  · exact .inr ⟨by assumption, rfl⟩
  · exact .inl ⟨by omega, rfl⟩

/-- The checked reads when every byte asked for is inside IN. -/
theorem takeBytes_ok (gs : List Nat) (s : State) (k : State → Answer) (h : s.ip + gs.sum ≤ s.inLen) :
    takeBytes gs s k = k { s with ip := s.ip + gs.sum } := by
  induction gs generalizing s with
  | nil => rfl
  | cons n gs ih =>
    rw [List.sum_cons] at h ⊢
    rw [takeBytes, if_neg (by omega), ih { s with ip := s.ip + n } (by simp only; omega)]
    simp only [Nat.add_assoc]

/-- Groups that are inside IN are read; then the rest goes on. -/
theorem takeBytes_append (gs hs : List Nat) (s : State) (k : State → Answer) :
    takeBytes (gs ++ hs) s k = takeBytes gs s (fun t => takeBytes hs t k) := by
  induction gs generalizing s with
  | nil => rfl
  | cons n gs ih => simp only [List.cons_append, takeBytes, ih]

/-- Single bytes, some of which lie past the end of IN: CorruptStream with IP at the end of IN. -/
theorem takeBytes_ones_short (n : Nat) (s : State) (k : State → Answer) (h0 : s.ip ≤ s.inLen)
    (h : s.inLen < s.ip + n) :
    takeBytes (List.replicate n 1) s k = raise .corruptStream { s with ip := s.inLen } := by
  induction n generalizing s with
  | zero => omega
  | succ n ih =>
    rw [List.replicate_succ, takeBytes]
    split
    · have e : s.inLen = s.ip := by omega
      exact congrArg (raise .corruptStream) (by cases s; simp only at e ⊢; rw [e])
    · exact ih { s with ip := s.ip + 1 } (by simp only; omega) (by simp only; omega)

/-- Everything the checked reads can do, where at least one byte is asked for. -/
theorem takeBytes_cases (gs : List Nat) (s : State) (k : State → Answer) (h1 : 1 ≤ gs.sum) :
    (s.ip + gs.sum ≤ s.inLen ∧ takeBytes gs s k = k { s with ip := s.ip + gs.sum }) ∨
      (s.inLen < s.ip + gs.sum ∧ ∃ j, s.ip ≤ j ∧ j ≤ s.ip + gs.sum ∧ (s.ip ≤ s.inLen → j ≤ s.inLen) ∧
        takeBytes gs s k = raise .corruptStream { s with ip := j }) := by
  induction gs generalizing s with
  | nil => simp at h1
  | cons n gs ih =>
    rw [takeBytes, List.sum_cons]
    split
    · exact .inr ⟨by omega, s.ip, Nat.le_refl _, by omega, id, rfl⟩
    · next h =>
      by_cases hz : gs.sum = 0
      · refine .inl ⟨by omega, ?_⟩
        rw [takeBytes_ok gs { s with ip := s.ip + n } k (by simp only; omega)]
        simp only [hz, Nat.add_zero]
      · rcases ih { s with ip := s.ip + n } (by omega) with ⟨h2, h3⟩ | ⟨h2, j, h3, h4, h5, h6⟩
        · simp only [Nat.add_assoc] at h2 h3
          exact .inl ⟨h2, h3⟩
        · simp only at h2 h3 h4 h5 h6
          exact .inr ⟨by omega, j, by omega, by omega, fun _ => h5 (by omega), h6⟩

/-- Everything the copy of a literal chunk can do. -/
theorem chunkCopy_cases (data : List Byte) (s : State) :
    ((s.inLen < s.ip + data.length ∨ s.outCap < s.op + data.length) ∧
        chunkCopy data s = raise .corruptStream s) ∨
      (s.ip + data.length ≤ s.inLen ∧ s.op + data.length ≤ s.outCap ∧
        chunkCopy data s = .next (emitBytes data { s with ip := s.ip + data.length })) := by
  unfold chunkCopy
  split
  · exact .inl ⟨.inl (by assumption), rfl⟩
  · split
    · exact .inl ⟨.inr (by assumption), rfl⟩
    · exact .inr ⟨by omega, by omega, rfl⟩

/-- The state a match copy leaves. -/
def copied (dist L : Nat) (s : State) : State :=
  { s with
    outMem := Memory.copy (Config.freeOut s.outFill) s.outMem (s.op - (dist + 1)) s.op L
    op := s.op + L }

/-- Everything MATCH_COPY can do. -/
theorem matchCopy_cases (dist L : Nat) (s : State) :
    ((s.op < dist + 1 ∨ s.outCap < s.op + L) ∧ matchCopy dist L s = raise .corruptStream s) ∨
      (dist + 1 ≤ s.op ∧ s.op + L ≤ s.outCap ∧ matchCopy dist L s = .next (copied dist L s)) := by
  unfold matchCopy
  split
  · exact .inl ⟨.inl (by assumption), rfl⟩
  · split
    · exact .inl ⟨.inr (by assumption), rfl⟩
    · exact .inr ⟨by omega, by omega, rfl⟩

/-- OUT after a run of emitted bytes: the byte emitted there, or what was there. -/
theorem readOut_emitBytes (bs : List Byte) (s : State) (a : Nat) :
    readOut (emitBytes bs s) a =
      if h : s.op ≤ a ∧ a < s.op + bs.length then bs[a - s.op]'(by omega) else readOut s a := by
  unfold readOut
  simp only [emitBytes_outMem, emitBytes_outFill, Memory.read_writeAll]
  split
  · next h => rw [List.getElem?_eq_getElem (by omega)]; rfl
  · rfl

theorem readOut_writeOut (s : State) (i a : Nat) (b : Byte) :
    readOut (writeOut s i b) a = if a = i then b else readOut s a := by
  unfold readOut
  simp only [writeOut_outMem, writeOut_outFill, Memory.read_write]
  split <;> rfl

theorem readOut_copied_outside (dist L : Nat) (s : State) (a : Nat) (h : a < s.op ∨ s.op + L ≤ a) :
    readOut (copied dist L s) a = readOut s a := by
  unfold readOut copied
  simp only
  rw [Memory.read_copy_outside _ _ _ _ _ _ h]

theorem readOut_copied_inside (dist L : Nat) (s : State) (k : Nat) (hd : dist + 1 ≤ s.op) (hk : k < L) :
    readOut (copied dist L s) (s.op + k) = readOut (copied dist L s) (s.op + k - (dist + 1)) := by
  unfold readOut copied
  simp only
  rw [Memory.read_copy_inside _ _ _ _ _ _ (by omega) hk,
    show s.op + k - (dist + 1) = s.op - (dist + 1) + k by omega]
  rfl

theorem inBytes_length (s : State) (a n : Nat) : (inBytes s a n).length = n := by
  induction n generalizing a with
  | zero => rfl
  | succ n ih => simp [inBytes, ih]

theorem inBytes_append (s : State) (a m n : Nat) :
    inBytes s a (m + n) = inBytes s a m ++ inBytes s (a + m) n := by
  induction m generalizing a with
  | zero => simp [inBytes]
  | succ m ih => rw [Nat.add_right_comm]; simp [inBytes, ih, Nat.add_assoc, Nat.add_comm 1]

theorem outBytes_length (s : State) (a n : Nat) : (outBytes s a n).length = n := by
  induction n generalizing a with
  | zero => rfl
  | succ n ih => simp [outBytes, ih]

/-- The match finder writes one slot and nothing else (40_match_finder.md R103). -/
theorem find_state (s : State) (p : Nat) : (find s p).2 = writeSlot s (hashAt s p) p := by
  unfold find lookupInsert
  simp only
  split
  · rfl
  · split <;> rfl

theorem hashAt_lt (s : State) (p : Nat) : hashAt s p < Config.hashSize := by
  unfold hashAt hashIndex
  split
  · unfold hashDefault
    simp only [BitVec.toNat_and]
    exact Nat.lt_of_le_of_lt Nat.and_le_right (by decide)
  · exact Nat.mod_lt _ (by decide)

/-- What EXTEND answers: at least `k`, the bytes from `k` on agree inside IN, and no further byte does. -/
theorem extendBy_spec (s : State) (r p fuel k : Nat) :
    k ≤ extendBy s r p fuel k ∧
      (∀ i, k ≤ i → i < extendBy s r p fuel k → p + i < s.inLen ∧ readIn s (r + i) = readIn s (p + i)) ∧
      (s.inLen ≤ p + k + fuel → ¬ (p + extendBy s r p fuel k < s.inLen ∧
        readIn s (r + extendBy s r p fuel k) = readIn s (p + extendBy s r p fuel k))) := by
  induction fuel generalizing k with
  | zero => exact ⟨Nat.le_refl _, fun i h1 h2 => by simp only [extendBy] at h2; omega, fun h hc => by
      simp only [extendBy] at hc; omega⟩
  | succ fuel ih =>
    rw [extendBy]
    split
    · next h =>
      obtain ⟨h1, h2, h3⟩ := ih (k + 1)
      refine ⟨by omega, fun i hi hi' => ?_, fun hf => h3 (by omega)⟩
      by_cases he : i = k
      · subst he; exact h
      · exact h2 i (by omega) hi'
    · next h => exact ⟨Nat.le_refl _, fun i h1 h2 => by omega, fun _ => h⟩

theorem agree_iff (s : State) (a b k n : Nat) :
    agree s a b k n = true ↔ ∀ i, k ≤ i → i < k + n → readIn s (a + i) = readIn s (b + i) := by
  induction n generalizing k with
  | zero => simp only [agree, true_iff]; intro i h1 h2; omega
  | succ n ih =>
    simp only [agree, Bool.and_eq_true, beq_iff_eq, ih]
    constructor
    · rintro ⟨h, h'⟩ i h1 h2
      by_cases he : i = k
      · subst he; exact h
      · exact h' i (by omega) (by omega)
    · intro h
      exact ⟨h k (Nat.le_refl _) (by omega), fun i h1 h2 => h i (by omega) (by omega)⟩

/-- An address reaches a target iff that is the one thing the placement puts there. -/
theorem targetAt_eq_some (m : Config.IfaceMap) (a : Nat) (t : Target) :
    targetAt m a = some t ↔ m.filterMap (fun e => targetOf a e.1 e.2) = [t] := by
  unfold targetAt
  split
  · next u h => simp [h]
  · next h => exact ⟨fun h1 => by simp at h1, fun h1 => absurd h1 (h t)⟩

/-- A host write outside BUSY takes effect. -/
theorem whenNotBusy_next {s : State} (s' : State) (h : s.phase ≠ .busy) : whenNotBusy s s' = .next s' := if_neg h

/-- A host write while BUSY is refused. -/
theorem whenNotBusy_refused {s : State} (s' : State) (h : s.phase = .busy) :
    whenNotBusy s s' = .refused .hostWriteWhileBusy := if_pos h

/-- A host write at an address never faults. -/
theorem writeTarget_not_fault (v : Nat) (s : State) (t : Option Target) (f : Fault) : writeTarget v s t ≠ .fault f := by
  rcases t with _ | t
  · simp [writeTarget]
  · cases t <;> simp only [writeTarget, writeCommand, hostWriteInLen, hostWriteOutCap, hostWriteIn, hostWriteOut, asByte,
      whenNotBusy] <;> (try split_ifs) <;> simp

end Sys2Proof.Machine
end

