-- ==== Sys2Proof/Laws/Exec.lean ====
section
/-! SUPPORT. Everything a token can do: end the command on an error, or append to OUT and move on. -/

namespace Sys2Proof.Machine

open Sys2Proof.Safety

/-- OUT of `t` is OUT of `s` with every byte from the old OP to the new one written, and no other. -/
structure Appended (s t : State) : Prop where
  opLe : s.op ≤ t.op
  same : ∀ a, a < s.op ∨ t.op ≤ a → Memory.read t.outMem a = Memory.read s.outMem a
  written : ∀ a, s.op ≤ a → a < t.op → (Memory.read t.outMem a).isSome
  wf : Memory.wf s.outMem → Memory.wf t.outMem

theorem appended_emitBytes (bs : List Byte) (s : State) : Appended s (emitBytes bs s) where
  opLe := by simp
  same a h := by
    simp only [emitBytes_op, emitBytes_outMem] at h ⊢
    rw [Memory.read_writeAll, if_neg (by omega)]
  written a h1 h2 := by
    simp only [emitBytes_op, emitBytes_outMem] at h2 ⊢
    rw [Memory.read_writeAll, if_pos ⟨h1, h2⟩, List.getElem?_eq_getElem (by omega)]
    rfl
  wf h := Memory.wf_writeAll h _ _

theorem appended_copied (dist L : Nat) (s : State) (h : dist + 1 ≤ s.op) : Appended s (copied dist L s) where
  opLe := by simp [copied]
  same a h := Memory.read_copy_outside _ _ _ _ _ _ h
  written a h1 h2 := by
    have h3 : a - s.op < L := by simp only [copied] at h2; omega
    have := Memory.read_copy_inside (Config.freeOut s.outFill) s.outMem (s.op - (dist + 1)) s.op L (a - s.op)
      (by omega) h3
    rw [show s.op + (a - s.op) = a by omega] at this
    rw [copied, this]
    rfl
  wf h := Memory.wf_copy h _ _ _ _

/-- OUT as a token sees it depends on neither IP nor FIRST. -/
theorem Appended.of_eq {s s' t : State} (h : Appended s' t) (h1 : s'.op = s.op) (h2 : s'.outMem = s.outMem) :
    Appended s t where
  opLe := h1 ▸ h.opLe
  same := by simpa [h1, h2] using h.same
  written := by simpa [h1] using h.written
  wf := by simpa [h2] using h.wf

/-- A token ends the command on an error, from its own state but for IP and FIRST. -/
def EndsOnError (i : Instr) (s : State) : Prop :=
  ∃ e j b, s.ip ≤ j ∧ j ≤ s.ip + tokenSize i ∧ (s.ip ≤ s.inLen → j ≤ s.inLen) ∧
    exec i s = raise e { s with ip := j, first := b }

/-- A token completes: IP moves past it, and OUT is appended to within its capacity. -/
def Completes (i : Instr) (s : State) : Prop :=
  ∃ t, exec i s = .next t ∧ TokenFrame s t ∧ t.ip = s.ip + tokenSize i ∧ t.ip ≤ s.inLen ∧ t.op ≤ s.outCap ∧
    (t.first = s.first ∨ t.first = false) ∧ Appended s t

theorem matchToken_cases {i : Instr} {s : State} {gs : List Nat} {dist L : Nat}
    (he : exec i s = takeBytes gs s (matchCopy dist L)) (hs : gs.sum = tokenSize i) (h1 : 1 ≤ gs.sum) :
    EndsOnError i s ∨ Completes i s := by
  rcases takeBytes_cases gs s (matchCopy dist L) h1 with ⟨h2, h3⟩ | ⟨h2, j, h3, h4, h5, h6⟩
  · rw [h3] at he
    rcases matchCopy_cases dist L { s with ip := s.ip + gs.sum } with ⟨_, h7⟩ | ⟨h7, h8, h9⟩
    · exact .inl ⟨_, s.ip + gs.sum, s.first, by omega, by omega, fun _ => h2, by rw [he, h7]⟩
    · refine .inr ⟨copied dist L { s with ip := s.ip + gs.sum }, he.trans h9, rfl, ?_, h2, h8, .inl rfl,
        (appended_copied dist L { s with ip := s.ip + gs.sum } h7).of_eq rfl rfl⟩
      rw [← hs]; rfl
  · exact .inl ⟨_, j, s.first, h3, by omega, h5, by rw [he, h6]⟩

theorem chunkToken_cases {i : Instr} {s : State} {data : List Byte} {b : Bool} (hs : tokenSize i = 1 + data.length)
    (hb : b = s.first ∨ b = false)
    (he : exec i s = takeBytes [1] s fun s1 => chunkCopy data { s1 with first := b }) :
    EndsOnError i s ∨ Completes i s := by
  rcases takeBytes_cases [1] s (fun s1 => chunkCopy data { s1 with first := b }) (by decide) with
    ⟨h2, h3⟩ | ⟨h2, j, h3, h4, h5, h6⟩
  · rw [h3] at he
    simp only [List.sum_cons, List.sum_nil, Nat.add_zero] at h2 he
    rcases chunkCopy_cases data { s with ip := s.ip + 1, first := b } with ⟨_, h7⟩ | ⟨h7, h8, h9⟩
    · exact .inl ⟨_, s.ip + 1, b, by omega, by omega, fun _ => h2, by rw [he, h7]⟩
    · refine .inr ⟨emitBytes data { s with ip := s.ip + 1 + data.length, first := b }, he.trans h9, rfl, ?_, h7, h8, hb,
        (appended_emitBytes data _).of_eq rfl rfl⟩
      rw [hs, ← Nat.add_assoc]; rfl
  · exact .inl ⟨_, j, s.first, h3, by simp at h4; omega, h5, by rw [he, h6]⟩

/-- Everything a token can do. -/
theorem exec_cases (i : Instr) (s : State) : EndsOnError i s ∨ Completes i s := by
  cases i with
  | lit0 tag data => exact chunkToken_cases (b := false) rfl (.inr rfl) rfl
  | lit data => exact chunkToken_cases (b := s.first) rfl (.inl rfl) (by
      show takeBytes [1] s (chunkCopy data) = _
      simp only [takeBytes])
  | m1s lc dh dl => exact matchToken_cases rfl rfl (by decide)
  | m1l dh e dl => exact matchToken_cases rfl rfl (by decide)
  | m2ns lc dh dl => exact matchToken_cases rfl rfl (by decide)
  | m2nl dh conts last dl => exact matchToken_cases rfl (by simp [tokenSize]; omega) (by simp)
  | m2fs lc fh fl => exact matchToken_cases rfl rfl (by decide)
  | m2fl conts last fh fl => exact matchToken_cases rfl (by simp [tokenSize]; omega) (by simp)
  | tagRsv23 tag low => exact .inl ⟨_, s.ip, s.first, Nat.le_refl _, by omega, id, rfl⟩
  | tagRsv47 tag low => exact .inl ⟨_, s.ip, s.first, Nat.le_refl _, by omega, id, rfl⟩

end Sys2Proof.Machine
end

