-- ==== Sys2Proof/Laws/PerInstr.lean ====
section
/-! SUPPORT. Statements made once per token kind: the number of bytes of an encoded token (30_encoding.md R87). -/

namespace Sys2Proof.Laws.TokenLength

/-- The encoding of a token has the length R87 gives it, and a well-formed token of a stream (not a reserved tag) is at
least two bytes long. -/
def Statement (i : Instr) : Prop :=
  (encode i).length = tokenSize i ∧ (i.wellFormed = true → legalIn ⟨false, .one⟩ i = true → 2 ≤ tokenSize i)

theorem lit0 (tag : BitVec 3) (data : List Byte) : Statement (.lit0 tag data) :=
  ⟨by simp [encode, tokenSize, Nat.add_comm], by simp [legalIn]⟩

theorem lit (data : List Byte) : Statement (.lit data) :=
  ⟨by simp [encode, tokenSize, Nat.add_comm], by
    simp only [Instr.wellFormed, chunkOk, Bool.and_eq_true, decide_eq_true_eq, tokenSize]; omega⟩

theorem m1s (lc : BitVec 3) (dh : BitVec 5) (dl : Byte) : Statement (.m1s lc dh dl) :=
  ⟨rfl, fun _ _ => Nat.le_refl _⟩

theorem m1l (dh : BitVec 5) (e dl : Byte) : Statement (.m1l dh e dl) :=
  ⟨rfl, fun _ _ => by simp [tokenSize]⟩

theorem m2ns (lc : BitVec 3) (dh : BitVec 5) (dl : Byte) : Statement (.m2ns lc dh dl) :=
  ⟨rfl, fun _ _ => Nat.le_refl _⟩

theorem m2nl (dh : BitVec 5) (conts : Nat) (last dl : Byte) : Statement (.m2nl dh conts last dl) :=
  ⟨by simp [encode, lengthBytes, tokenSize]; omega, fun _ _ => by simp [tokenSize]⟩

theorem m2fs (lc : BitVec 3) (fh fl : Byte) : Statement (.m2fs lc fh fl) :=
  ⟨rfl, fun _ _ => by simp [tokenSize]⟩

theorem m2fl (conts : Nat) (last fh fl : Byte) : Statement (.m2fl conts last fh fl) :=
  ⟨by simp [encode, lengthBytes, tokenSize]; omega, fun _ _ => by simp [tokenSize]; omega⟩

theorem tagRsv23 (tag : BitVec 3) (low : BitVec 5) : Statement (.tagRsv23 tag low) :=
  ⟨rfl, by simp [legalIn]⟩

theorem tagRsv47 (tag : BitVec 3) (low : BitVec 5) : Statement (.tagRsv47 tag low) :=
  ⟨rfl, by simp [legalIn]⟩

end Sys2Proof.Laws.TokenLength
end

