-- ==== Sys2Proof/Laws/Wf.lean ====
section
/-! SUPPORT. The canonical form of the three memories holds at reset and is kept by every operation over them. -/

namespace Sys2Proof.Safety

open Sys2Proof.Machine

theorem memoriesWf_reset : MemoriesWf State.reset := by
  simp [MemoriesWf, State.reset, Memory.wf, slotsWf]

theorem memoriesWf_writeIn {s : State} (h : MemoriesWf s) (i : Nat) (b : Byte) :
    MemoriesWf { s with inMem := Memory.write s.inMem i b } :=
  ⟨Memory.wf_write h.1 i b, h.2⟩

theorem memoriesWf_writeOut {s : State} (h : MemoriesWf s) (i : Nat) (b : Byte) : MemoriesWf (writeOut s i b) :=
  ⟨h.1, Memory.wf_write h.2.1 i b, h.2.2⟩

theorem memoriesWf_emitBytes {s : State} (h : MemoriesWf s) (bs : List Byte) : MemoriesWf (emitBytes bs s) :=
  ⟨h.1, Memory.wf_writeAll h.2.1 _ bs, h.2.2⟩

theorem memoriesWf_writeSlot {s : State} (h : MemoriesWf s) {i : Nat} (hi : i < Config.hashSize) (v : Nat) :
    MemoriesWf (writeSlot s i v) :=
  ⟨h.1, h.2.1, slotsWf_writeSlot h.2.2 hi v⟩

theorem memoriesWf_forgetOut {s : State} (h : MemoriesWf s) : MemoriesWf (forgetOut s) :=
  ⟨h.1, by simp [forgetOut, Memory.wf], h.2.2⟩

end Sys2Proof.Safety
end

