-- ==== Sys2Proof/Tests/Slice0.lean ====
section
/-! SUPPORT. Tests of the model against the spec's own examples (95_test_vectors_and_programs.md, hand-copied), and a
witness for the hypotheses of each statement. Every test is one step or one operation. -/

namespace Sys2Proof.Tests

open Sys2Proof.Machine Sys2Proof.Safety

/-! ## Helpers -/

/-- Bytes laid out from index 0. -/
def cells (bs : List Byte) : List Host.Cell := bs.zipIdx.map fun e => (e.2, e.1)

/-- DECOMPRESS before a token: `input` from IP 0 on, `out` already produced, OUT_CAP `cap`. -/
def tokenState (level : Level) (first : Bool) (input out : List Byte) (cap : Nat) : State :=
  { State.reset with
    phase := .busy, cmd := .decompress, seq := .body, level := level, first := first
    inMem := cells input, inLen := input.length, outMem := cells out, op := out.length, outCap := cap }

/-- DECOMPRESS before its start block. -/
def startState (input : List Byte) (cap : Nat) : State :=
  { tokenState .one false input [] cap with seq := .start }

/-- COMPRESS at scan position `p` with `anchor` and the table given, nothing emitted yet. -/
def scanState (level : Level) (input : List Byte) (p anchor : Nat) (table : List Slot) : State :=
  { State.reset with
    phase := .busy, cmd := .compress, seq := .body, level := level, inMem := cells input, inLen := input.length
    outCap := 2 * input.length, ip := p, anchor := anchor, ht := table }

/-- IP and the bytes of OUT a step leaves, while the command goes on. -/
def goesOn (a : Answer) : Option (Nat × List Byte) :=
  match a with
  | .next t => if t.phase = .busy then some (t.ip, outBytes t 0 t.op) else none
  | .fault _ => none
  | .refused _ => none

theorem next_of_goesOn {a : Answer} {v : Nat × List Byte} (h : goesOn a = some v) :
    ∃ t, a = .next t ∧ t.phase ≠ .done := by
  cases a with
  | next t =>
    refine ⟨t, rfl, fun hd => ?_⟩
    simp [goesOn, hd] at h
  | fault f => simp [goesOn] at h
  | refused r => simp [goesOn] at h

/-- The code a step ends the command with. -/
def endsWith (a : Answer) : Option StatusCode :=
  match a with
  | .next t => if t.phase = .done then some t.code else none
  | .fault _ => none
  | .refused _ => none

/-- The bytes of OUT from `a` on, `n` of them, after a step. -/
def outAfter (a : Answer) (i n : Nat) : Option (List Byte) :=
  match a with
  | .next t => some (outBytes t i n)
  | .fault _ => none
  | .refused _ => none

/-! ## WellFormed refuses (30_encoding.md R71 to R80, R85) -/

theorem test_wf_lit0_tag : (Instr.lit0 2 [0x61]).wellFormed = false := by decide
theorem test_wf_lit0_empty : (Instr.lit0 0 []).wellFormed = false := by decide
theorem test_wf_lit_empty : (Instr.lit []).wellFormed = false := by decide
theorem test_wf_lit_33 : (Instr.lit (List.replicate 33 0)).wellFormed = false := by decide
theorem test_wf_m1s_lc0 : (Instr.m1s 0 0 0).wellFormed = false := by decide
theorem test_wf_m1s_lc7 : (Instr.m1s 7 0 0).wellFormed = false := by decide
theorem test_wf_m2ns_lc0 : (Instr.m2ns 0 0 0).wellFormed = false := by decide
theorem test_wf_m2ns_escape : (Instr.m2ns 1 31 255).wellFormed = false := by decide
theorem test_wf_m2nl_terminator : (Instr.m2nl 0 0 255 0).wellFormed = false := by decide
theorem test_wf_m2nl_escape : (Instr.m2nl 31 0 0 255).wellFormed = false := by decide
theorem test_wf_m2fs_lc7 : (Instr.m2fs 7 0 0).wellFormed = false := by decide
theorem test_wf_m2fl_terminator : (Instr.m2fl 0 255 0 0).wellFormed = false := by decide
theorem test_wf_tag23 : (Instr.tagRsv23 1 0).wellFormed = false := by decide
theorem test_wf_tag47 : (Instr.tagRsv47 3 0).wellFormed = false := by decide
theorem test_wf_accepts : (Instr.lit (List.replicate 32 0)).wellFormed = true := by decide
theorem test_legal_m1s : legalIn ⟨false, .two⟩ (.m1s 1 0 0) = false := by decide
theorem test_legal_lit0 : legalIn ⟨false, .one⟩ (.lit0 0 [0x61]) = false := by decide

/-! ## Decoding: a word of each kind, bit by bit from the spec's encoding of it -/

/-- R74: tag 001, cnt - 1 = 00001, two bytes. -/
theorem test_decode_lit0 :
    decode ⟨true, .one⟩ [0b00100001, 0x78, 0x79, 0xE0] = .ok (.lit0 1 [0x78, 0x79], [0xE0]) := by decide
/-- R73: 000, cnt - 1 = 00010. -/
theorem test_decode_lit :
    decode ⟨false, .two⟩ [0b00000010, 0x61, 0x62, 0x63] = .ok (.lit [0x61, 0x62, 0x63], []) := by decide
/-- R75: lc = 110, dh = 11111, dl = FF: Level1 has no escape. -/
theorem test_decode_m1s : decode ⟨false, .one⟩ [0b11011111, 0xFF] = .ok (.m1s 6 31 0xFF, []) := by decide
/-- R76: 111, dh = 11111, e = FF, dl = FE (V-L1-15). -/
theorem test_decode_m1l : decode ⟨false, .one⟩ [0b11111111, 0xFF, 0xFE] = .ok (.m1l 31 0xFF 0xFE, []) := by decide
/-- R77: lc = 001, dh = 11111, dl = FE: the last near distance (V-L2-11). -/
theorem test_decode_m2ns : decode ⟨false, .two⟩ [0b00111111, 0xFE] = .ok (.m2ns 1 31 0xFE, []) := by decide
/-- R78: 111, dh = 00000, length bytes FF 23, dl = 01 (V-L2-10). -/
theorem test_decode_m2nl :
    decode ⟨false, .two⟩ [0b11100000, 0xFF, 0x23, 0x01] = .ok (.m2nl 0 1 0x23 1, []) := by decide
/-- R79: lc = 010, 11111, marker FF, fh = FF, fl = FC (V-L2-17). -/
theorem test_decode_m2fs :
    decode ⟨false, .two⟩ [0b01011111, 0xFF, 0xFF, 0xFC] = .ok (.m2fs 2 0xFF 0xFC, []) := by decide
/-- R80: FF, length byte 00, marker FF, f = 0 (V-L2-15). -/
theorem test_decode_m2fl :
    decode ⟨false, .two⟩ [0xFF, 0x00, 0xFF, 0x00, 0x00] = .ok (.m2fl 0 0 0 0, []) := by decide
/-- R71, R85: tag 011. -/
theorem test_decode_tag23 : decode ⟨true, .two⟩ [0b01100101] = .ok (.tagRsv23 3 5, []) := by decide
/-- R71, R85: tag 100. -/
theorem test_decode_tag47 : decode ⟨true, .one⟩ [0b10000000, 0x61] = .ok (.tagRsv47 4 0, [0x61]) := by decide

theorem test_reject_empty : decode ⟨true, .one⟩ [] = .error .noByte := by decide
/-- V-LIT-7. -/
theorem test_reject_chunk : decode ⟨true, .one⟩ [0x1F, 0x61] = .error (.literalCut 1) := by decide
/-- V-L1-34. -/
theorem test_reject_m1s : decode ⟨false, .one⟩ [0x20] = .error (.lowByteMissing 1) := by decide
theorem test_reject_m1l : decode ⟨false, .one⟩ [0xE0] = .error (.extensionMissing 1) := by decide
/-- V-L1-36. -/
theorem test_reject_m1l_low : decode ⟨false, .one⟩ [0xE0, 0xFF] = .error (.lowByteMissing 2) := by decide
/-- V-L2-26. -/
theorem test_reject_length : decode ⟨false, .two⟩ [0xE0, 0xFF] = .error (.lengthMissing 2) := by decide
/-- V-L2-22. -/
theorem test_reject_m2nl_low : decode ⟨false, .two⟩ [0xE0, 0xFF, 0x00] = .error (.lowByteMissing 3) := by decide
/-- V-L2-27: the far bytes are asked for together. -/
theorem test_reject_far : decode ⟨false, .two⟩ [0x3F, 0xFF, 0x00] = .error (.farBytesMissing 2) := by decide

/-- V-L2-18, encoded. -/
theorem test_encode_m2fl : encode (.m2fl 1 0x22 0xDF 0x14) = [0xFF, 0xFF, 0x22, 0xFF, 0xDF, 0x14] := by decide
/-- P3: `M1 5, 6` is `40 05`. -/
theorem test_assemble_m1 : (assembleM1 5 6).map encode = some [0x40, 0x05] := by decide
/-- P5: `M2 299, 65300`. -/
theorem test_assemble_m2 : (assembleM2 299 65300).map encode = some [0xFF, 0xFF, 0x22, 0xFF, 0xDF, 0x14] := by decide
/-- P2's stream, in the notation of R89. -/
theorem test_assemble_stream :
    (assembleBytes [.lit [0x78, 0x79], .m2 12 2, .lit [0x7A]]).map (applyTag 1)
      = some [0x21, 0x78, 0x79, 0xE0, 0x02, 0x01, 0x00, 0x7A] := by decide

/-! ## The host's table word (log 20) -/

theorem test_table_lit0 : decodeTableWord 8 0x00 = some (.lit0 0 [0]) := by decide
theorem test_table_lit : decodeTableWord 8 0x11 = some (.lit (List.replicate 18 0)) := by decide
theorem test_table_m1l : decodeTableWord 8 0xE0 = some (.m1l 0 0 0) := by decide
theorem test_table_m2nl : decodeTableWord 8 0xF1 = some (.m2nl 17 0 0 0) := by decide
theorem test_table_m2fs : decodeTableWord 16 0x3FFF = some (.m2fs 1 0 0) := by decide
theorem test_table_tag23 : decodeTableWord 8 0x40 = some (.tagRsv23 2 0) := by decide
theorem test_table_tag47 : decodeTableWord 8 0x80 = some (.tagRsv47 4 0) := by decide
/-- The placed word runs at the next step: a reserved tag ends with UnknownLevel, a match with nothing before it with
CorruptStream (R157). -/
theorem test_fetch_tag : endsWith (step (State.reset.withFetchWord 8 0x80)) = some .unknownLevel := by decide
theorem test_fetch_m1l : endsWith (step (State.reset.withFetchWord 8 0xE0)) = some .corruptStream := by decide

/-! ## Tokens, one step each -/

/-- V-LIT-10. -/
theorem test_step_lit0 :
    goesOn (step (tokenState .two true [0x20, 0x61] [] 1)) = some (2, [0x61]) := by decide
/-- V-LIT-7. -/
theorem test_step_lit0_cut : endsWith (step (tokenState .one true [0x1F, 0x61] [] 100)) = some .corruptStream := by
  decide
/-- V-LIT-8, the second chunk. -/
theorem test_step_lit :
    goesOn (step (tokenState .one false [0x00, 0x62] [0x61] 2)) = some (2, [0x61, 0x62]) := by decide
/-- V-LIT-6 with one byte: the chunk exceeds OUT_CAP. -/
theorem test_step_lit_cap : endsWith (step (tokenState .one false [0x00, 0x62] [0x61] 1)) = some .corruptStream := by
  decide
/-- P1, step 2 (V-L1-28). -/
theorem test_step_m1s :
    goesOn (step (tokenState .one false [0x60, 0x02] [0x61, 0x62, 0x63] 100))
      = some (2, [0x61, 0x62, 0x63, 0x61, 0x62, 0x63, 0x61, 0x62, 0x63]) := by decide
/-- P3, step 2: REF is negative. -/
theorem test_step_m1s_ref :
    endsWith (step (tokenState .one false [0x40, 0x05] [0x41, 0x42] 100)) = some .corruptStream := by decide
/-- V-L1-29: an overlapping copy. -/
theorem test_step_m1l :
    goesOn (step (tokenState .one false [0xE0, 0x00, 0x00] [0x61] 100)) = some (3, List.replicate 11 0x61) := by decide
/-- V-L1-36. -/
theorem test_step_m1l_cut : endsWith (step (tokenState .one false [0xE0, 0xFF] [0x61] 100)) = some .corruptStream := by
  decide
/-- V-L2-20. -/
theorem test_step_m2ns :
    goesOn (step (tokenState .two false [0x20, 0x00] [0x61] 5)) = some (2, List.replicate 5 0x61) := by decide
/-- V-ERR-7's capacity, in Level2. -/
theorem test_step_m2ns_cap : endsWith (step (tokenState .two false [0x20, 0x00] [0x61] 4)) = some .corruptStream := by
  decide
/-- P2, step 2. -/
theorem test_step_m2nl :
    goesOn (step (tokenState .two false [0xE0, 0x02, 0x01] [0x78, 0x79] 100))
      = some (3, (List.replicate 7 [0x78, 0x79]).flatten) := by decide
/-- V-L2-22. -/
theorem test_step_m2nl_cut :
    endsWith (step (tokenState .two false [0xE0, 0xFF, 0x00] [0x61] 1000)) = some .corruptStream := by decide

/-- Where V-MODE decodes its tail: 8192 bytes produced, of which the first four are listed. -/
def modeState (tail : List Byte) : State :=
  { tokenState .two false tail [0, 1, 2, 3] 100000 with op := 8192 }

/-- V-MODE-1 in Level2. -/
theorem test_step_m2fs : outAfter (step (modeState [0x3F, 0xFF, 0x00, 0x00])) 8192 4 = some [0, 1, 2, 3] := by
  decide +kernel
/-- V-MODE-2 in Level2: distance 8193. -/
theorem test_step_m2fs_ref : endsWith (step (modeState [0x3F, 0xFF, 0x00, 0x01])) = some .corruptStream := by
  decide +kernel
/-- V-MODE-3 in Level2, its first bytes. -/
theorem test_step_m2fl : outAfter (step (modeState [0xFF, 0x00, 0xFF, 0x00, 0x00])) 8192 4 = some [0, 1, 2, 3] := by
  decide +kernel
/-- V-ERR-3. -/
theorem test_step_tag23 : endsWith (step (startState [0x40, 0x00] 100)) = some .unknownLevel := by decide
/-- V-ERR-4. -/
theorem test_step_tag47 : endsWith (step (startState [0xE0] 100)) = some .unknownLevel := by decide
/-- V-ERR-2. -/
theorem test_step_empty : endsWith (step (startState [] 100)) = some .emptyInput := by decide
/-- R207: the end of IN ends the command with OK. -/
theorem test_step_end : endsWith (step (tokenState .one false [] [0x61] 1)) = some .ok := by decide

/-! ## The encoder -/

/-- V-HASH-5. -/
theorem test_hash : hashDefault 0x5A 0x61 0x62 = 3856 := by decide
/-- V-LIT-2's shape: the chunks are cut from the front. -/
theorem test_literals :
    literalBytes (List.replicate 33 0x20) = 0x1F :: (List.replicate 32 0x20 ++ [0x00, 0x20]) := by decide
/-- V-L1-15. -/
theorem test_emit_m1 : (emitM1 8191 300, coveredM1 300) = ([0xFF, 0xFF, 0xFE, 0xFF, 0x19, 0xFE], 300) := by decide
/-- V-L1-7: the remainder 3 is left over. -/
theorem test_emit_m1_rest : (emitM1 1 268, coveredM1 268) = ([0xE0, 0xFF, 0x00], 265) := by decide
/-- V-L2-8. -/
theorem test_emit_m2 : emitM2 1 520 = [0xE0, 0xFF, 0xFF, 0x00, 0x00] := by decide
/-- V-L2-16. -/
theorem test_emit_m2_far : emitM2 8192 265 = [0xFF, 0xFF, 0x00, 0xFF, 0x00, 0x00] := by decide

/-- "ZabcdXabcdY" (V-MF-3, P4). -/
def p4 : List Byte := [0x5A, 0x61, 0x62, 0x63, 0x64, 0x58, 0x61, 0x62, 0x63, 0x64, 0x59]

/-- The table at position 6 of P4: the slot that holds position 0 reads as unset. -/
def p4Table : List Slot := [(2925, 2), (3407, 1), (3858, 5), (4235, 3), (4656, 4)]

/-- P4, step 2. -/
theorem test_scan_match :
    goesOn (step (scanState .one p4 6 0 p4Table))
      = some (10, [0x05, 0x5A, 0x61, 0x62, 0x63, 0x64, 0x58, 0x20, 0x04]) := by decide +kernel
/-- P4, position 0: no match, and IP moves by one. -/
theorem test_scan_no_match : goesOn (step (scanState .one p4 0 0 [])) = some (1, []) := by decide +kernel
/-- V-MF-2: a match of length 3 is rejected. -/
theorem test_find_short :
    (find (scanState .one [0x5A, 0x61, 0x62, 0x63, 0x58, 0x61, 0x62, 0x63, 0x59] 5 0 [(3407, 1)]) 5).1 = .noMatch := by
  decide +kernel
/-- V-MF-1: the run at position 2 from position 1. -/
theorem test_find_run : (find (scanState .one (List.replicate 10 0x61) 2 0 [(3116, 1)]) 2).1 = .matched 1 8 := by
  decide +kernel
/-- R171: the Level2 run shortcut needs no slot. -/
theorem test_find_shortcut : (find (scanState .two (List.replicate 10 0x61) 1 0 []) 1).1 = .matched 1 9 := by
  decide +kernel
/-- S-3: "ab" ends as `01 61 62`. -/
theorem test_finish : outAfter (step (scanState .one [0x61, 0x62] 0 0 [])) 0 3 = some [0x01, 0x61, 0x62] := by decide
/-- R202: the Level2 tag is ORed into byte 0. -/
theorem test_finish_tag : outAfter (step (scanState .two [0x61, 0x62] 0 0 [])) 0 3 = some [0x21, 0x61, 0x62] := by decide
/-- V-ERR-1. -/
theorem test_compress_empty : endsWith (step { scanState .one [] 0 0 [] with seq := .start }) = some .emptyInput := by
  decide

/-! ## Witnesses: a state and operands that meet the hypotheses of each statement, clause by clause at a bound -/

theorem witness_DecodeOfEncodeIsTheToken :
    (Instr.m2nl 31 2 0xFE 0xFE).wellFormed = true ∧ legalIn ⟨false, .two⟩ (.m2nl 31 2 0xFE 0xFE) = true := by decide

theorem witness_DecodedBytesAreTheTokensOwn :
    decode ⟨false, .two⟩ [0xFF, 0x00, 0xFF, 0xFF, 0xFF] = .ok (.m2fl 0 0 0xFF 0xFF, []) := by decide

/-- Both ends of both ranges. -/
theorem witness_Level1TokenRanges :
    (Instr.m1s 1 0 0).wellFormed = true ∧ legalIn ⟨false, .one⟩ (.m1s 1 0 0) = true ∧
    operandsOf (.m1s 1 0 0) = some (1, 4) ∧
    (Instr.m1l 31 0xFF 0xFF).wellFormed = true ∧ legalIn ⟨false, .one⟩ (.m1l 31 0xFF 0xFF) = true ∧
    operandsOf (.m1l 31 0xFF 0xFF) = some (8192, 265) := by decide

/-- Each kind, at an end of its distances. -/
theorem witness_Level2TokenRanges :
    ∀ i ∈ [Instr.m2ns 6 31 0xFE, .m2nl 31 1 0 0xFE, .m2fs 1 0 0, .m2fl 0 0xFE 0xFF 0xFF],
      i.wellFormed = true ∧ legalIn ⟨false, .two⟩ i = true ∧
        operandsOf i ∈ [some (8191, 9), some (8191, 265), some (8192, 4), some (73727, 264)] := by decide

theorem witness_AssembledMatchesCarryTheirOperands :
    assembleM1 265 8192 = some (.m1l 31 255 255) ∧ assembleM2 4 73727 = some (.m2fs 1 255 255) := by decide

/-- The three clauses: a byte short, a byte too many for OUT, and room to the last byte. -/
theorem witness_Lit0ByItsRule :
    (let s := tokenState .one true [0x01, 0x61] [] 2
     s.ip + 1 ≤ s.inLen ∧ s.inLen < s.ip + 1 + [(0x61 : Byte), 0x62].length) ∧
    (let s := tokenState .one true [0x01, 0x61, 0x62] [] 1
     s.ip + 1 + [(0x61 : Byte), 0x62].length ≤ s.inLen ∧ s.outCap < s.op + [(0x61 : Byte), 0x62].length) ∧
    (let s := tokenState .one true [0x01, 0x61, 0x62] [] 2
     s.ip + 1 + [(0x61 : Byte), 0x62].length ≤ s.inLen ∧ s.op + [(0x61 : Byte), 0x62].length ≤ s.outCap) := by decide

theorem witness_LitByItsRule :
    (let s := tokenState .two false [0x01, 0x61] [0x60] 3
     s.ip + 1 ≤ s.inLen ∧ s.inLen < s.ip + 1 + [(0x61 : Byte), 0x62].length) ∧
    (let s := tokenState .two false [0x01, 0x61, 0x62] [0x60] 2
     s.ip + 1 + [(0x61 : Byte), 0x62].length ≤ s.inLen ∧ s.outCap < s.op + [(0x61 : Byte), 0x62].length) ∧
    (let s := tokenState .two false [0x01, 0x61, 0x62] [0x60] 3
     s.ip + 1 + [(0x61 : Byte), 0x62].length ≤ s.inLen ∧ s.op + [(0x61 : Byte), 0x62].length ≤ s.outCap) := by decide

/-- The first clause of each token: bytes at an end of the control bytes that decode to it. -/
theorem witness_Lit0ByItsRule_bytes :
    (0x3E : Byte).toNat < 64 ∧ (List.replicate 31 (0 : Byte)).length = (0x3E : Byte).toNat % 32 + 1 := by decide
theorem witness_LitByItsRule_bytes :
    (0x1F : Byte).toNat < 32 ∧ (List.replicate 32 (0 : Byte)).length = (0x1F : Byte).toNat + 1 := by decide
theorem witness_M1SByItsRule_bytes : 1 ≤ (0xDF : Byte).toNat >>> 5 ∧ (0xDF : Byte).toNat >>> 5 ≤ 6 := by decide
theorem witness_M1LByItsRule_bytes : (0xE0 : Byte).toNat >>> 5 = 7 := by decide
theorem witness_M2NSByItsRule_bytes :
    1 ≤ (0x3F : Byte).toNat >>> 5 ∧ (0x3F : Byte).toNat >>> 5 ≤ 6 ∧
    ¬ ((0x3F : Byte).toNat &&& 31 = 31 ∧ (0xFE : Byte) = 255) := by decide
theorem witness_M2NLByItsRule_bytes :
    (0xFF : Byte).toNat >>> 5 = 7 ∧ (0xFE : Byte) ≠ 255 ∧ ¬ ((0xFF : Byte).toNat &&& 31 = 31 ∧ (0xFE : Byte) = 255) := by
  decide
theorem witness_M2FSByItsRule_bytes :
    1 ≤ (0xDF : Byte).toNat >>> 5 ∧ (0xDF : Byte).toNat >>> 5 ≤ 6 ∧ (0xDF : Byte).toNat &&& 31 = 31 := by decide
theorem witness_M2FLByItsRule_bytes : (0xFE : Byte) ≠ 255 := by decide

/-- `input` one byte short, and the three outcomes of a copy of `L` from `dist + 1` back, each at its bound. -/
def MatchClauses (size dist L : Nat) : Prop :=
  ∃ cut ref cap whole : State,
    (cut.ip + 1 ≤ cut.inLen ∧ cut.inLen < cut.ip + size) ∧
    (ref.ip + size ≤ ref.inLen ∧ ref.op < dist + 1) ∧
    (cap.ip + size ≤ cap.inLen ∧ dist + 1 ≤ cap.op ∧ cap.outCap < cap.op + L) ∧
    (whole.ip + size ≤ whole.inLen ∧ dist + 1 ≤ whole.op ∧ whole.op + L ≤ whole.outCap)

/-- The four states of `MatchClauses`, each one off from the next clause. -/
theorem matchClauses (size dist L : Nat) (h : 2 ≤ size) : MatchClauses size dist L := by
  refine ⟨{ State.reset with inLen := size - 1 }, { State.reset with inLen := size, op := dist },
    { State.reset with inLen := size, op := dist + 1, outCap := dist + L },
    { State.reset with inLen := size, op := dist + 1, outCap := dist + 1 + L }, ?_, ?_, ?_, ?_⟩
  all_goals simp only [State.reset]; omega

theorem witness_M1SByItsRule : MatchClauses 2 (nearDist 31 0xFF) 9 := matchClauses _ _ _ (by decide)
theorem witness_M1LByItsRule : MatchClauses 3 (nearDist 0 0) 265 := matchClauses _ _ _ (by decide)
theorem witness_M2NSByItsRule : MatchClauses 2 (nearDist 31 0xFE) 4 := matchClauses _ _ _ (by decide)
theorem witness_M2NLByItsRule : MatchClauses (2 + 1 + 2) (nearDist 0 0) (rawLen (longLen 2 5)) :=
  matchClauses _ _ _ (by decide)
theorem witness_M2FSByItsRule : MatchClauses 4 (farDist 0 0) 9 := matchClauses _ _ _ (by decide)
theorem witness_M2FLByItsRule : MatchClauses (1 + 1 + 4) (farDist 0xFF 0xFF) (rawLen (longLen 1 0)) :=
  matchClauses _ _ _ (by decide)

/-- P1's match: distance 3, length 6: a copy longer than its distance. -/
theorem witness_MatchCopyRepeatsItsPeriod :
    operandsOf (.m1s 3 0 2) = some (3, 6) ∧
    ∃ t, exec (.m1s 3 0 2) (tokenState .one false [0x60, 0x02] [0x61, 0x62, 0x63] 9) = .next t ∧ t.phase ≠ .done :=
  ⟨by decide, next_of_goesOn (v := (2, [0x61, 0x62, 0x63, 0x61, 0x62, 0x63, 0x61, 0x62, 0x63])) (by decide)⟩

theorem witness_RaiseEndsTheCommand : ∃ t, raise .corruptStream State.reset = .next t := ⟨_, rfl⟩

theorem witness_StepRunsTheDecodedToken :
    TokenTurn (tokenState .one false [0x60, 0x02] [0x61, 0x62, 0x63] 100) ∧
    decode (tokenContext (tokenState .one false [0x60, 0x02] [0x61, 0x62, 0x63] 100))
      (tokenWindow (tokenState .one false [0x60, 0x02] [0x61, 0x62, 0x63] 100)) = .ok (.m1s 3 0 2, []) :=
  ⟨⟨⟨rfl, rfl, rfl, rfl⟩, by decide⟩, by decide⟩

theorem witness_StepRunsTheReservedTag :
    CoreTurn (startState [0xE0] 0) .decompress .start ∧ 1 ≤ (startState [0xE0] 0).inLen ∧
    reservedTag (readIn (startState [0xE0] 0) 0) = some (.tagRsv47 7 0) :=
  ⟨⟨rfl, rfl, rfl, rfl⟩, by decide, by decide⟩

theorem witness_MissingByteIsCorruptStream :
    TokenTurn (tokenState .two false [0x3F, 0xFF, 0x00] [0x61] 100) ∧
    decode (tokenContext (tokenState .two false [0x3F, 0xFF, 0x00] [0x61] 100))
      (tokenWindow (tokenState .two false [0x3F, 0xFF, 0x00] [0x61] 100)) = .error (.farBytesMissing 2) :=
  ⟨⟨⟨rfl, rfl, rfl, rfl⟩, by decide⟩, by decide⟩

theorem witness_TokenStepConsumesTwoBytes : TokenTurn (tokenState .one true [0x00, 0x61] [] 1) :=
  ⟨⟨rfl, rfl, rfl, rfl⟩, by decide⟩

/-- No byte; byte 0 the least reserved value; byte 0 the greatest value that is not. -/
theorem witness_DecompressStartsByItsRule :
    (CoreTurn (startState [] 9) .decompress .start ∧ (startState [] 9).inLen = 0) ∧
    (CoreTurn (startState [0x40] 9) .decompress .start ∧ 1 ≤ (startState [0x40] 9).inLen ∧
      0x40 ≤ (readIn (startState [0x40] 9) 0).toNat) ∧
    (CoreTurn (startState [0x3F] 9) .decompress .start ∧ 1 ≤ (startState [0x3F] 9).inLen ∧
      (readIn (startState [0x3F] 9) 0).toNat < 0x40) :=
  ⟨⟨⟨rfl, rfl, rfl, rfl⟩, by decide⟩, ⟨⟨rfl, rfl, rfl, rfl⟩, by decide, by decide⟩,
    ⟨⟨rfl, rfl, rfl, rfl⟩, by decide, by decide⟩⟩

theorem witness_DecompressEndsAtTheEndOfIn :
    CoreTurn (tokenState .one false [] [0x61] 1) .decompress .body ∧
    (tokenState .one false [] [0x61] 1).inLen ≤ (tokenState .one false [] [0x61] 1).ip :=
  ⟨⟨rfl, rfl, rfl, rfl⟩, by decide⟩

theorem witness_DecompressNeverReadsTheTable :
    CoreTurn (tokenState .one true [0x00, 0x61] [] 1) .decompress .body ∧
    ∃ t, step (tokenState .one true [0x00, 0x61] [] 1) = .next t := ⟨⟨rfl, rfl, rfl, rfl⟩, _, rfl⟩

/-- An empty table at position 1, in both levels, and at position 0. -/
theorem witness_UnsetSlotGivesNoMatch :
    (readSlot (scanState .one p4 1 0 []) (hashAt (scanState .one p4 1 0 []) 1) = 0 ∧
      (scanState .one p4 1 0 []).level = .one) ∧
    (readSlot (scanState .two p4 1 0 []) (hashAt (scanState .two p4 1 0 []) 1) = 0 ∧
      (scanState .two p4 1 0 []).level = .two) ∧
    SlotsBefore (scanState .one p4 0 0 []) 0 := ⟨⟨rfl, rfl⟩, ⟨rfl, rfl⟩, fun _ => .inl rfl⟩

/-- P4's candidate: position 1 for position 6; the premises of the test hold whether it accepts or not. -/
theorem witness_Level1AcceptanceTest :
    (scanState .one p4 6 0 p4Table).level = .one ∧ 1 ≤ 1 ∧ 1 < 6 ∧
    judge (scanState .one p4 6 0 p4Table) 6 1 = .matched 5 4 := by decide +kernel

/-- A near candidate, and a far one that is turned away. -/
theorem witness_Level2AcceptanceTest :
    (scanState .two p4 6 0 p4Table).level = .two ∧ 1 ≤ 1 ∧ 1 < 6 ∧
    judge (scanState .two p4 6 0 p4Table) 6 1 = .matched 5 4 := by decide +kernel

/-- The far branch: distance 8192 at position 8193 with five bytes that agree and then the end of the input. -/
def farState : State :=
  { scanState .two [] 8193 0 [] with
    inLen := 8198
    inMem := [(1, 1), (2, 2), (3, 3), (4, 4), (5, 5), (8193, 1), (8194, 2), (8195, 3), (8196, 4), (8197, 5)] }

theorem witness_Level2AcceptanceTest_far :
    farState.level = .two ∧ 1 ≤ 1 ∧ 1 < 8193 ∧ judge farState 8193 1 = .matched 8192 5 := by decide +kernel

theorem witness_FoundMatchesAreReal : (find (scanState .one p4 6 0 p4Table) 6).1 = .matched 5 4 := by decide +kernel

theorem witness_FoundMatchesAreEncodable :
    (find (scanState .one p4 6 0 p4Table) 6).1 = .matched 5 4 ∧ (scanState .one p4 6 0 p4Table).level = .one ∧
    (find (scanState .two p4 6 0 p4Table) 6).1 = .matched 5 4 ∧ (scanState .two p4 6 0 p4Table).level = .two := by
  decide +kernel

theorem witness_LengthBytesSumToTheLength : 7 ≤ 7 ∧ lenBytes 7 = [0] ∧ lenBytes 262 = [255, 0] := by decide
theorem witness_EmitM1IsTheSplitToken : 1 ≤ 8191 ∧ 8191 ≤ 8191 ∧ 4 ≤ 4 := by decide
theorem witness_EmitM2IsOneToken : 1 ≤ 73724 ∧ 73724 < 73725 ∧ 4 ≤ 4 := by decide
theorem witness_MatchTokensNeverExpand : (matchTokens .one 1 4).1.length = 2 ∧ 4 ≤ 4 := by decide

/-- COMPRESS before its start block, over `n` bytes. -/
def compressStart (n : Nat) : State :=
  { State.reset with phase := .busy, cmd := .compress, seq := .start, inLen := n, outCap := 2 * n }

/-- Both sides of the level threshold, and the empty input. -/
theorem witness_CompressStartsByItsRule :
    (CoreTurn (compressStart 0) .compress .start ∧ (compressStart 0).inLen = 0) ∧
    (CoreTurn (compressStart 65535) .compress .start ∧ 1 ≤ (compressStart 65535).inLen) ∧
    (CoreTurn (compressStart 65536) .compress .start ∧ 1 ≤ (compressStart 65536).inLen) :=
  ⟨⟨⟨rfl, rfl, rfl, rfl⟩, rfl⟩, ⟨⟨rfl, rfl, rfl, rfl⟩, by decide⟩, ⟨⟨rfl, rfl, rfl, rfl⟩, by decide⟩⟩

/-- No match at position 0; a match at position 6, with the room it needs (P4). -/
theorem witness_ScanStepByItsRule :
    (ScanTurn (scanState .one p4 0 0 []) ∧ (find (scanState .one p4 0 0 []) 0).1 = .noMatch) ∧
    (ScanTurn (scanState .one p4 6 0 p4Table) ∧ (find (scanState .one p4 6 0 p4Table) 6).1 = .matched 5 4 ∧
      0 + (literalBytes (pendingRun (scanState .one p4 6 0 p4Table) 6)).length + (matchTokens .one 5 4).1.length ≤ 22) :=
  ⟨⟨⟨⟨rfl, rfl, rfl, rfl⟩, by decide⟩, by decide +kernel⟩, ⟨⟨rfl, rfl, rfl, rfl⟩, by decide⟩, by decide +kernel,
    by decide +kernel⟩

theorem witness_CompressEndsByItsRule :
    FinishTurn (scanState .two [0x61, 0x62, 0x63] 0 0 []) ∧
    0 + (literalBytes (pendingRun (scanState .two [0x61, 0x62, 0x63] 0 0 []) 3)).length ≤ 6 :=
  ⟨⟨⟨rfl, rfl, rfl, rfl⟩, by decide⟩, by decide⟩

/-- A machine with empty memories, BUSY before the start block of a COMPRESS, meets the invariant. -/
theorem compressStart_inv (n : Nat) : Inv (compressStart n) where
  memories := ⟨List.Pairwise.nil, List.Pairwise.nil, List.Pairwise.nil, by simp [compressStart, State.reset]⟩
  busy _ := Nat.le_refl _
  done h := by simp [compressStart] at h

theorem witness_CompressTerminatesWithOk :
    Inv (compressStart 1) ∧ CoreTurn (compressStart 1) .compress .start ∧ 1 ≤ (compressStart 1).inLen :=
  ⟨compressStart_inv 1, ⟨rfl, rfl, rfl, rfl⟩, by decide⟩

theorem witness_DecompressTerminates :
    CoreTurn (startState [0x00, 0x61] 1) .decompress .start ∧ 1 ≤ (startState [0x00, 0x61] 1).inLen :=
  ⟨⟨rfl, rfl, rfl, rfl⟩, by decide⟩

/-- COMPRESS with exactly the capacity it needs, and DECOMPRESS. -/
theorem witness_CmdWriteStartsTheCommand :
    (let s := { State.reset with inLen := 1, outCap := 2, host := [.writeCmd 1] }
     s.phase ≠ .busy ∧ s.host = .writeCmd 1 :: [] ∧ 2 * s.inLen ≤ s.outCap) ∧
    (let s := { State.reset with phase := .done, host := [.writeCmd 2] }
     s.phase ≠ .busy ∧ s.host = .writeCmd 2 :: []) := by decide

theorem witness_CmdWritesRefused :
    (let s := { compressStart 1 with host := [.writeCmd 2] }
     s.phase = .busy ∧ s.host = .writeCmd 2 :: []) ∧
    (let s := { State.reset with host := [.writeCmd 3] }
     s.phase ≠ .busy ∧ s.host = .writeCmd 3 :: []) ∧
    (let s := { State.reset with inLen := 1, outCap := 1, host := [.writeCmd 1] }
     s.phase ≠ .busy ∧ s.host = .writeCmd 1 :: [] ∧ s.outCap < 2 * s.inLen) := by decide

theorem witness_HostWritesOnlyOutsideBusy : (compressStart 1).phase = .busy ∧ State.reset.phase ≠ .busy := by decide

/-- A placement: CMD at 0, STATUS at 1, IN at 16 to 31, and OUT at 31, which shares IN's last address. -/
def placement : Config.IfaceMap := [(0, .cmd), (1, .status), (16, .inBuffer 16), (31, .outBuffer 16)]

/-- Each outcome of an access by address, at the ends of the windows. -/
theorem witness_HostWritesOnlyOutsideBusy_address :
    targetAt placement 0 = some .cmd ∧ targetAt placement 1 = some .status ∧ targetAt placement 15 = none ∧
    targetAt placement 16 = some (.inByte 0) ∧ targetAt placement 30 = some (.inByte 14) ∧
    targetAt placement 31 = none ∧ targetAt placement 32 = some (.outByte 1) ∧
    targetAt [(4, .inLen), (5, .outCap), (6, .outLen)] 4 = some .inLen ∧
    targetAt [(4, .inLen), (5, .outCap), (6, .outLen)] 5 = some .outCap ∧
    targetAt [(4, .inLen), (5, .outCap), (6, .outLen)] 6 = some .outLen := by decide

/-- R35: STATUS read at its address after a DECOMPRESS that failed with CorruptStream. -/
theorem test_read_status :
    readAt { State.reset with iface := placement, phase := .done, code := .corruptStream } 1 = some 6 := by decide

/-- R24, R26: a COMPRESS write keeps ANCHOR and a DECOMPRESS write keeps FIRST; the start blocks set them (log 10). -/
theorem test_launch_keeps :
    (launch .compress { State.reset with anchor := 5 }).anchor = 5 ∧
    (launch .decompress { State.reset with first := true }).first = true := by decide

theorem witness_ResetAbandonsTheCommand :
    ({ compressStart 1 with host := [.reset, .pass] } : State).host = .reset :: [.pass] := rfl

theorem witness_CoreWaitsOutsideBusy : State.reset.host = [] ∧ State.reset.phase ≠ .busy := by decide

/-- A DECOMPRESS between two tokens meets the invariant, and its step answers a next state. -/
theorem tokenState_inv : Inv (tokenState .one true [0x00, 0x61] [] 1) where
  memories := ⟨by decide, by decide, by decide, by simp [tokenState, State.reset]⟩
  busy _ := show DecompressInv _ from
    { nonempty := by decide, tagKnown := by decide, levelChosen := by decide, ipLe := by decide, opLe := by decide,
      written := fun _ h => absurd h (Nat.not_lt_zero _), firstAtZero := by decide }
  done h := by simp [tokenState] at h

/-- A COMPRESS at its first scan position meets the invariant. -/
theorem scanState_inv : Inv (scanState .one p4 0 0 []) where
  memories := ⟨by decide, by decide, by decide, by simp [scanState, State.reset]⟩
  busy _ := show CompressInv _ from
    { nonempty := by decide, room := by decide, levelChosen := by decide, anchorLe := by decide, ipLe := by decide
      opLe := by decide, opPos := by decide, written := fun _ h => absurd h (Nat.not_lt_zero _)
      firstLiteral := by decide, slots := fun _ => .inl rfl }
  done h := by simp [scanState] at h

theorem witness_StepKeepsInv :
    (Inv (tokenState .one true [0x00, 0x61] [] 1) ∧ ∃ t, step (tokenState .one true [0x00, 0x61] [] 1) = .next t) ∧
    (Inv (scanState .one p4 0 0 []) ∧ ∃ t, step (scanState .one p4 0 0 []) = .next t) :=
  ⟨⟨tokenState_inv, _, rfl⟩, scanState_inv, (next_of_goesOn test_scan_no_match).imp fun _ h => h.1⟩

theorem witness_NoStepFaults : Inv (scanState .one p4 0 0 []) := scanState_inv

theorem witness_CoreNeverWritesIn :
    (tokenState .one true [0x00, 0x61] [] 1).host = [] ∧ ∃ t, step (tokenState .one true [0x00, 0x61] [] 1) = .next t :=
  ⟨rfl, _, rfl⟩

theorem witness_CommandOnlyAdvances :
    CoreTurn (tokenState .one true [0x00, 0x61] [] 1) .decompress .body ∧
    (∃ t, step (tokenState .one true [0x00, 0x61] [] 1) = .next t) ∧
    (tokenState .one true [0x00, 0x61] [] 1).ip ≤ (tokenState .one true [0x00, 0x61] [] 1).inLen :=
  ⟨⟨rfl, rfl, rfl, rfl⟩, ⟨_, rfl⟩, by decide⟩

/-- IN with another byte after its end and another fill. -/
theorem witness_CoreReadsOnlyInsideIn :
    (tokenState .one true [0x00, 0x61] [] 1).host = [] ∧
    (∀ i < (tokenState .one true [0x00, 0x61] [] 1).inLen,
      readIn { tokenState .one true [0x00, 0x61] [] 1 with inMem := cells [0x00, 0x61, 0x62], inFill := 7 } i
        = readIn (tokenState .one true [0x00, 0x61] [] 1) i) ∧
    ∃ t, step (tokenState .one true [0x00, 0x61] [] 1) = .next t :=
  ⟨rfl, by decide, _, rfl⟩

theorem witness_CommandStartForgetsTheLastOne :
    (1 ≤ (compressStart 1).inLen ∧ CoreTurn (compressStart 1) .compress .start) ∧
    (1 ≤ (startState [0x3F] 9).inLen ∧ CoreTurn (startState [0x3F] 9) .decompress .start ∧
      (readIn (startState [0x3F] 9) 0).toNat < 0x40) :=
  ⟨⟨by decide, rfl, rfl, rfl, rfl⟩, by decide, ⟨rfl, rfl, rfl, rfl⟩, by decide⟩

theorem witness_CompressThenDecompressGivesTheInput :
    State.reset.phase ≠ .busy ∧ [(0x61 : Byte)] ≠ [] ∧ 2 * [(0x61 : Byte)].length ≤ 2 ∧ [(0x61 : Byte)].length ≤ 1 := by
  decide

end Sys2Proof.Tests
end

/-! ## The sequencer: what a step of the core or of the host is (44_dispatcher.md R200, R205, R206; log 4) -/

namespace Sys2Proof.Machine

/-- The answer of a plan: `step` after `plan`, and the core's own move after `corePlan`. -/
def perform : Plan → Answer
  | .run i s => exec i s
  | .answer a => a

/-- The core's own move, whatever the host has still to do. -/
def coreStep (s : State) : Answer := perform (corePlan s)

theorem step_eq_perform (s : State) : step s = perform (plan s) := by
  unfold step perform
  cases plan s <;> rfl

/-- With no host move pending the core moves. -/
theorem step_eq_coreStep {s : State} (h : s.host = []) : step s = coreStep s := by
  rw [step_eq_perform, plan, h]
  rfl

/-- A step is the core's move, with or without a host move taken off the list, or the first host move. -/
theorem step_cases (s : State) :
    (∃ moves, step s = coreStep { s with host := moves }) ∨
      ∃ h rest, s.host = h :: rest ∧ step s = hostMove h { s with host := rest } := by
  rw [step_eq_perform, plan]
  split
  · exact .inl ⟨s.host, rfl⟩
  · next rest _ => exact .inl ⟨rest, rfl⟩
  · next rest hw =>
    split
    · exact .inr ⟨.waitDone, rest, hw, rfl⟩
    · exact .inl ⟨s.host, rfl⟩
  · next h rest _ _ hh => exact .inr ⟨h, rest, hh, rfl⟩

section CoreStep

variable {s : State}

/-- Outside BUSY the core waits (70_reset_and_hazards.md R250). -/
theorem coreStep_waits (h : s.phase ≠ .busy) : coreStep s = .next s := by
  unfold coreStep corePlan
  cases hp : s.phase with
  | idle => rfl
  | busy => exact absurd hp h
  | done => rfl

theorem coreStep_noCommand (hb : s.phase = .busy) (hc : s.cmd = .none) :
    coreStep s = .fault .busyWithoutCommand := by
  simp [coreStep, corePlan, perform, hb, hc]

theorem coreStep_compress_start (hb : s.phase = .busy) (hc : s.cmd = .compress) (hq : s.seq = .start) :
    coreStep s = startCompress s := by
  simp [coreStep, corePlan, perform, hb, hc, hq]

theorem coreStep_compress_body (hb : s.phase = .busy) (hc : s.cmd = .compress) (hq : s.seq = .body) :
    coreStep s = if s.ip + 4 ≤ s.inLen then scanStep s else finishCompress s := by
  simp [coreStep, corePlan, perform, hb, hc, hq]

theorem coreStep_decompress_start (hb : s.phase = .busy) (hc : s.cmd = .decompress) (hq : s.seq = .start) :
    coreStep s = perform (startDecompressPlan s) := by
  simp [coreStep, corePlan, hb, hc, hq]

theorem coreStep_decompress_body (hb : s.phase = .busy) (hc : s.cmd = .decompress) (hq : s.seq = .body) :
    coreStep s = if s.ip < s.inLen then perform (tokenPlan s) else .next (succeed s) := by
  simp only [coreStep, corePlan, hb, hc, hq]
  split <;> rfl

end CoreStep

/-- A reserved tag is run by ending the command with UnknownLevel (60_exceptions.md R223). -/
theorem exec_reservedTag {c : Byte} {i : Instr} (h : reservedTag c = some i) (s : State) :
    exec i s = raise .unknownLevel s := by
  unfold reservedTag at h
  split_ifs at h
  all_goals
    obtain rfl := Option.some.inj h
    rfl

/-- Everything the start block of DECOMPRESS can do (44_dispatcher.md R205). -/
theorem startDecompress_cases (s : State) :
    (∃ e, perform (startDecompressPlan s) = raise e s) ∨
      (1 ≤ s.inLen ∧ reservedTag (readIn s 0) = none ∧ perform (startDecompressPlan s) = .next (startTokens s)) := by
  unfold startDecompressPlan
  split
  · exact .inl ⟨_, rfl⟩
  · split
    · next i hi => exact .inl ⟨_, exec_reservedTag hi s⟩
    · next hn => exact .inr ⟨by omega, hn, rfl⟩

/-- A token step runs the token that is decoded, or fails on a missing byte (44_dispatcher.md R206). -/
theorem tokenPlan_cases (s : State) :
    (∃ i rest, decode (tokenContext s) (tokenWindow s) = .ok (i, rest) ∧ perform (tokenPlan s) = exec i s) ∨
      ∃ r, decode (tokenContext s) (tokenWindow s) = .error r ∧ perform (tokenPlan s) = rejectToken r s := by
  unfold tokenPlan
  split
  · next i rest h => exact .inl ⟨i, rest, h, rfl⟩
  · next r h => exact .inr ⟨r, h, rfl⟩

/-! The host's moves -/

theorem whenNotBusy_eq_next {s s' t : State} : whenNotBusy s s' = .next t ↔ s.phase ≠ .busy ∧ s' = t := by
  by_cases h : s.phase = .busy
  · simp [whenNotBusy_refused s' h, h]
  · simp [whenNotBusy_next s' h, h]

/-- What a host move can make of the state (60_exceptions.md R235, 70_reset_and_hazards.md R253). -/
inductive HostEffect (s : State) : State → Prop where
  | nothing : HostEffect s s
  | reset : HostEffect s (resetNow s)
  | writeIn (i : Nat) (b : Byte) (h : s.phase ≠ .busy) : HostEffect s { s with inMem := Memory.write s.inMem i b }
  | writeOut (i : Nat) (b : Byte) (h : s.phase ≠ .busy) : HostEffect s (writeOut s i b)
  | writeInLen (n : Nat) (h : s.phase ≠ .busy) : HostEffect s { s with inLen := n }
  | writeOutCap (n : Nat) (h : s.phase ≠ .busy) : HostEffect s { s with outCap := n }
  | compress (h : s.phase ≠ .busy) (room : 2 * s.inLen ≤ s.outCap) : HostEffect s (launch .compress s)
  | decompress (h : s.phase ≠ .busy) : HostEffect s (launch .decompress s)

section HostEffect

variable {s t : State}

theorem hostWriteIn_effect {i : Nat} {b : Byte} (h : hostWriteIn i b s = .next t) : HostEffect s t := by
  obtain ⟨hp, rfl⟩ := whenNotBusy_eq_next.1 h
  exact .writeIn i b hp

theorem hostWriteOut_effect {i : Nat} {b : Byte} (h : hostWriteOut i b s = .next t) : HostEffect s t := by
  obtain ⟨hp, rfl⟩ := whenNotBusy_eq_next.1 h
  exact .writeOut i b hp

theorem hostWriteInLen_effect {n : Nat} (h : hostWriteInLen n s = .next t) : HostEffect s t := by
  obtain ⟨hp, rfl⟩ := whenNotBusy_eq_next.1 h
  exact .writeInLen n hp

theorem hostWriteOutCap_effect {n : Nat} (h : hostWriteOutCap n s = .next t) : HostEffect s t := by
  obtain ⟨hp, rfl⟩ := whenNotBusy_eq_next.1 h
  exact .writeOutCap n hp

theorem writeCommand_effect {v : Nat} (h : writeCommand v s = .next t) : HostEffect s t := by
  unfold writeCommand at h
  split_ifs at h with hp h1 hr h2
  · obtain rfl := Host.Outcome.next.inj h
    exact .compress hp (by omega)
  · obtain rfl := Host.Outcome.next.inj h
    exact .decompress hp

theorem asByte_eq_next {v : Nat} {k : Byte → Answer} (h : asByte v k = .next t) : ∃ b, k b = .next t := by
  unfold asByte at h
  split_ifs at h
  exact ⟨_, h⟩

theorem writeTarget_effect {v : Nat} {target : Option Target} (h : writeTarget v s target = .next t) :
    HostEffect s t := by
  rcases target with _ | target
  · cases h
  · cases target with
    | cmd => exact writeCommand_effect h
    | inLen => exact hostWriteInLen_effect h
    | outCap => exact hostWriteOutCap_effect h
    | status => cases h
    | outLen => cases h
    | inByte i =>
      obtain ⟨b, hb⟩ := asByte_eq_next (k := fun b => hostWriteIn i b s) h
      exact hostWriteIn_effect hb
    | outByte i =>
      obtain ⟨b, hb⟩ := asByte_eq_next (k := fun b => hostWriteOut i b s) h
      exact hostWriteOut_effect hb

theorem hostMove_effect {m : HostOp} (h : hostMove m s = .next t) : HostEffect s t := by
  cases m with
  | writeIn i b => exact hostWriteIn_effect h
  | writeOut i b => exact hostWriteOut_effect h
  | writeInLen n => exact hostWriteInLen_effect h
  | writeOutCap n => exact hostWriteOutCap_effect h
  | writeCmd v => exact writeCommand_effect h
  | writeAt a v => exact writeTarget_effect h
  | reset => cases h; exact .reset
  | pass => cases h; exact .nothing
  | waitDone => cases h; exact .nothing

end HostEffect

end Sys2Proof.Machine

/-! ## What COMPRESS emits: lengths and the first byte (41_literal.md R130, 44_dispatcher.md R203, R204) -/

namespace Sys2Proof.Machine

/-- One byte more per chunk of 32 (41_literal.md R130). -/
theorem chunksOf_length (fuel : Nat) (run : List Byte) (h : run.length ≤ fuel) :
    (chunksOf fuel run).length = run.length + (run.length + 31) / 32 := by
  induction fuel generalizing run with
  | zero => simp [chunksOf, List.eq_nil_of_length_eq_zero (Nat.le_zero.1 h)]
  | succ fuel ih =>
    cases run with
    | nil => rfl
    | cons b bs =>
      have hrest := ih ((b :: bs).drop 32) (by simp at h ⊢; omega)
      simp only [chunksOf, Config.maxCopy, List.length_cons, List.length_append, List.length_take, hrest,
        List.length_drop]
      omega

theorem literalBytes_length (run : List Byte) :
    (literalBytes run).length = run.length + (run.length + 31) / 32 :=
  chunksOf_length _ _ (Nat.le_refl _)

/-- A run that is not empty begins with a literal's control byte (41_literal.md R130, 44_dispatcher.md R203). -/
theorem literalBytes_head {run : List Byte} (h : 1 ≤ run.length) :
    ∃ c rest, literalBytes run = c :: rest ∧ c.toNat < 32 := by
  cases run with
  | nil => simp at h
  | cons b bs =>
    refine ⟨_, _, rfl, ?_⟩
    simp only [Config.maxCopy, List.length_take, List.length_cons, BitVec.toNat_ofNat]
    omega

theorem pendingRun_length (s : State) (b : Nat) : (pendingRun s b).length = b - s.anchor := inBytes_length _ _ _

/-- The split of a length into full tokens and a remainder (42_level1.md R153, R154). -/
theorem split_add (L : Nat) : 265 * fullTokens L + splitRest L = L := by
  unfold splitRest fullTokens Config.l1MaxToken
  omega

theorem emitM1One_length (dist L : Nat) : (emitM1One dist L).length = if 10 ≤ L then 3 else 2 := by
  unfold emitM1One Config.lenBias
  by_cases h : 10 ≤ L
  · simp [h, show 7 ≤ L - 3 by omega]
  · simp [h, show ¬ 7 ≤ L - 3 by omega]

theorem emitM1_length (distance L : Nat) : (emitM1 distance L).length =
    3 * fullTokens L + (if 4 ≤ splitRest L then (if 10 ≤ splitRest L then 3 else 2) else 0) := by
  unfold emitM1 Config.minMatch
  split <;> simp [emitM1One_length, Nat.mul_comm]

theorem lengthPart_length (len low : Nat) :
    (lengthPart len low).length = if len < 7 then 1 else 2 + (len - 7) / 255 := by
  unfold lengthPart lenBytes
  split
  · rfl
  · simp
    omega

theorem emitM2_length (distance L : Nat) : (emitM2 distance L).length =
    (if L < 10 then 1 else 2 + (L - 10) / 255) + (if distance < 8192 then 1 else 3) := by
  have hlen : (if L - 3 < 7 then 1 else 2 + (L - 3 - 7) / 255) = if L < 10 then 1 else 2 + (L - 10) / 255 := by
    split <;> split <;> omega
  unfold emitM2 Config.lenBias Config.distBias Config.l2NearBound
  by_cases h : distance < 8192
  · simp [h, show distance - 1 < 8191 by omega, lengthPart_length, hlen]
  · simp [h, show ¬ distance - 1 < 8191 by omega, lengthPart_length, hlen]

theorem coveredM1_bounds {L : Nat} (h : 4 ≤ L) : 4 ≤ coveredM1 L ∧ coveredM1 L ≤ L := by
  have hsplit := split_add L
  unfold coveredM1 Config.minMatch Config.l1MaxToken
  split <;> omega

/-- A match covers input, and not more than its length (42_level1.md R154). -/
theorem matchTokens_covered_bounds (level : Level) (distance : Nat) {L : Nat} (h : 4 ≤ L) :
    4 ≤ (matchTokens level distance L).2 ∧ (matchTokens level distance L).2 ≤ L := by
  cases level with
  | one => exact coveredM1_bounds h
  | two => exact ⟨h, Nat.le_refl L⟩

/-- A match costs at most as many bytes as it covers (44_dispatcher.md R204). -/
theorem matchTokens_length_le (level : Level) (distance : Nat) {L : Nat} (h : 4 ≤ L) :
    (matchTokens level distance L).1.length ≤ (matchTokens level distance L).2 := by
  cases level with
  | one =>
    have hsplit := split_add L
    show (emitM1 distance L).length ≤ coveredM1 L
    rw [emitM1_length]
    unfold coveredM1 Config.minMatch Config.l1MaxToken
    split
    · split <;> omega
    · omega
  | two =>
    show (emitM2 distance L).length ≤ L
    rw [emitM2_length]
    split <;> split <;> omega

/-! ## The match finder: the bounds of what it reports (40_match_finder.md R105 to R110) -/

/-- EXTEND stays inside IN, where its first `k` bytes do or it goes past them. -/
theorem extend_within {s : State} {r p k : Nat} (h : k < extend s r p k ∨ p + k ≤ s.inLen) :
    p + extend s r p k ≤ s.inLen := by
  obtain ⟨hge, hagree, _⟩ := extendBy_spec s r p (s.inLen - p) k
  by_cases hlt : k < extend s r p k
  · have := (hagree (extend s r p k - 1) (by omega) (by unfold extend at *; omega)).1
    omega
  · have : extend s r p k = k := Nat.le_antisymm (by omega) hge
    omega

theorem longEnough_eq_matched {d n distance L : Nat} :
    longEnough d n = .matched distance L ↔ 4 ≤ n ∧ d = distance ∧ n = L := by
  unfold longEnough Config.minMatch
  split
  · simp; omega
  · simp; omega

/-- An extension that is long enough to be reported lies inside IN. -/
theorem longEnough_extend_bounds {s : State} {d r p k distance L : Nat}
    (h : longEnough d (extend s r p k) = .matched distance L) (hk : k = 3 ∨ p + k ≤ s.inLen) :
    4 ≤ L ∧ p + L ≤ s.inLen := by
  obtain ⟨h4, _, rfl⟩ := longEnough_eq_matched.1 h
  exact ⟨h4, extend_within (by omega)⟩

theorem runShortcut_bounds {s : State} {p distance L : Nat} (h : runShortcut s p = .matched distance L) :
    1 ≤ p ∧ 4 ≤ L ∧ p + L ≤ s.inLen := by
  unfold runShortcut at h
  split_ifs at h with hrun
  exact ⟨hrun.1, longEnough_extend_bounds h (.inl rfl)⟩

theorem judge_bounds {s : State} {p cand distance L : Nat} (h : judge s p cand = .matched distance L) :
    1 ≤ p ∧ 4 ≤ L ∧ p + L ≤ s.inLen := by
  unfold judge at h
  by_cases hc : cand = 0 ∨ p ≤ cand
  · simp [hc] at h
  · rw [if_neg hc] at h
    refine ⟨by omega, ?_⟩
    cases hl : s.level with
    | one =>
      simp only [hl] at h
      split_ifs at h
      exact longEnough_extend_bounds h (.inl rfl)
    | two =>
      simp only [hl] at h
      split_ifs at h with _ _ hfar
      · exact longEnough_extend_bounds h (.inl rfl)
      · exact longEnough_extend_bounds h (.inr hfar.1)

/-- A reported match stands after position 0, is four bytes long and inside IN (40_match_finder.md R104, R108, R110). -/
theorem find_bounds {s : State} {p distance L : Nat} (h : (find s p).1 = .matched distance L) :
    1 ≤ p ∧ 4 ≤ L ∧ p + L ≤ s.inLen := by
  unfold find at h
  cases hl : s.level with
  | one =>
    simp only [hl] at h
    exact judge_bounds h
  | two =>
    simp only [hl] at h
    cases hr : runShortcut s p with
    | noMatch =>
      simp only [hr] at h
      exact judge_bounds h
    | matched d n =>
      simp only [hr] at h
      exact runShortcut_bounds (hr.trans h)

/-! ## The two kinds of scan step (40_match_finder.md R112) -/

/-- The state after a scan position with a match: the slot written, the pending run and the match tokens emitted. -/
def matchEmitted (s : State) (distance L : Nat) : State :=
  emitBytes (literalBytes (pendingRun s s.ip) ++ (matchTokens s.level distance L).1)
    { writeSlot s (hashAt s s.ip) s.ip with
      ip := s.ip + (matchTokens s.level distance L).2, anchor := s.ip + (matchTokens s.level distance L).2 }

theorem scanStep_cases (s : State) :
    scanStep s = .next { writeSlot s (hashAt s s.ip) s.ip with ip := s.ip + 1 } ∨
      ∃ distance L, (find s s.ip).1 = .matched distance L ∧ scanStep s = withinOut (matchEmitted s distance L) := by
  have hstate := find_state s s.ip
  unfold scanStep
  rcases hf : find s s.ip with ⟨_ | ⟨distance, L⟩, s1⟩
  · rw [hf] at hstate
    exact .inl (by rw [← hstate])
  · rw [hf] at hstate
    exact .inr ⟨distance, L, rfl, by simp only at hstate ⊢; rw [hstate]; rfl⟩

/-! ## The decoder: how far a missing byte is looked for, and the first token (30_encoding.md R71, R83) -/

theorem decodeLength_error {bs : List Byte} {n : Nat} (h : decodeLength bs = .error n) : n = bs.length := by
  induction bs generalizing n with
  | nil => cases h; rfl
  | cons c bs ih =>
    rw [decodeLength] at h
    split_ifs at h
    split at h
    · cases h
    · next m hm =>
      cases h
      rw [ih hm, List.length_cons]

theorem decodeLength_ok {bs rest : List Byte} {k : Nat} {last : Byte}
    (h : decodeLength bs = .ok (k, last, rest)) : bs.length = k + 1 + rest.length := by
  induction bs generalizing k with
  | nil => cases h
  | cons c bs ih =>
    rw [decodeLength] at h
    split_ifs at h
    · split at h
      · next j l r hj =>
        cases h
        rw [List.length_cons, ih hj]
        omega
      · cases h
    · cases h
      simp; omega

theorem decodeChunk_error {mk : List Byte → Instr} {cnt : Nat} {bs : List Byte} {r : Reject}
    (h : decodeChunk mk cnt bs = .error r) : r.used = 1 := by
  unfold decodeChunk at h
  split_ifs at h
  cases h
  rfl

theorem decodeDistance2_error {near : Byte → Instr} {far : Byte → Byte → Instr} {dh : BitVec 5} {used : Nat}
    {bs : List Byte} {r : Reject} (h : decodeDistance2 near far dh used bs = .error r) :
    r.used ≤ used + bs.length := by
  cases bs with
  | nil => cases h; exact Nat.le_refl _
  | cons dl rest =>
    simp only [decodeDistance2] at h
    split_ifs at h
    split at h
    · cases h
    · cases h
      simp [Reject.used]

theorem decodeMatch1_error {c : Byte} {bs : List Byte} {r : Reject} (h : decodeMatch1 c bs = .error r) :
    r.used ≤ 1 + bs.length := by
  unfold decodeMatch1 at h
  split_ifs at h
  · split at h <;> cases h <;> simp [Reject.used]
  · split at h <;> cases h
    simp [Reject.used]

theorem decodeMatch2_error {c : Byte} {bs : List Byte} {r : Reject} (h : decodeMatch2 c bs = .error r) :
    r.used ≤ 1 + bs.length := by
  unfold decodeMatch2 at h
  split_ifs at h
  · split at h
    · next n hn =>
      cases h
      rw [Reject.used, decodeLength_error hn]
    · next k last rest hk =>
      have := decodeDistance2_error h
      have := decodeLength_ok hk
      omega
  · exact decodeDistance2_error h

/-- Byte 0 decodes to a reserved tag or to LIT0 (30_encoding.md R71, R74). -/
theorem decodeFirst_ok {c : Byte} {bs rest : List Byte} {i : Instr} (h : decodeFirst c bs = .ok (i, rest)) :
    reservedTag c = some i ∨ ∃ tag data, i = .lit0 tag data := by
  unfold decodeFirst at h
  split at h
  · next j hj =>
    cases h
    exact .inl hj
  · unfold decodeChunk at h
    split_ifs at h
    cases h
    exact .inr ⟨_, _, rfl⟩

theorem decodeFirst_error {c : Byte} {bs : List Byte} {r : Reject} (h : decodeFirst c bs = .error r) :
    r.used = 1 := by
  unfold decodeFirst at h
  split at h
  · cases h
  · exact decodeChunk_error h

/-- A missing byte is asked for after the bytes that are there (60_exceptions.md R222). -/
theorem decode_error_used_le {ctx : Context} {bytes : List Byte} {r : Reject} (h : decode ctx bytes = .error r) :
    r.used ≤ bytes.length := by
  cases bytes with
  | nil => cases h; exact Nat.le_refl _
  | cons c bs =>
    simp only [decode] at h
    rw [List.length_cons, Nat.add_comm]
    split_ifs at h
    · have := decodeFirst_error h
      omega
    · have := decodeChunk_error h
      omega
    · split at h
      · exact decodeMatch1_error h
      · exact decodeMatch2_error h

theorem tokenWindow_length (s : State) : (tokenWindow s).length = s.inLen - s.ip := inBytes_length _ _ _

/-- The first token ends the command or clears FIRST (41_literal.md R134, 60_exceptions.md R223). -/
theorem exec_firstToken {s t : State} {i : Instr} {ctx : Context} {bytes rest : List Byte}
    (hctx : ctx.first = true) (hdec : decode ctx bytes = .ok (i, rest)) (hip : s.ip < s.inLen)
    (h : exec i s = .next t) : t.phase = .done ∨ t.first = false := by
  cases bytes with
  | nil => cases hdec
  | cons c bs =>
    simp only [decode, hctx, if_true] at hdec
    rcases decodeFirst_ok hdec with htag | ⟨tag, data, rfl⟩
    · rw [exec_reservedTag htag] at h
      cases h
      exact .inl rfl
    · have hread : exec (.lit0 tag data) s = chunkCopy data (clearFirst { s with ip := s.ip + 1 }) :=
        takeBytes_ok [1] s (fun s1 => chunkCopy data (clearFirst s1)) hip
      rw [hread] at h
      rcases chunkCopy_cases data (clearFirst { s with ip := s.ip + 1 }) with ⟨_, hc⟩ | ⟨_, _, hc⟩
      · rw [hc] at h
        cases h
        exact .inl rfl
      · rw [hc] at h
        cases h
        exact .inr rfl

end Sys2Proof.Machine

/-! ## DECOMPRESS and the hash table (10_state.md R31) -/

namespace Sys2Proof.Machine

/-- The state with another hash table in its place. -/
def withTable (table : List Slot) (s : State) : State := { s with ht := table }

/-- `f` on the next state of an answer. -/
def onNext (f : State → State) : Answer → Answer
  | .next s => .next (f s)
  | .fault r => .fault r
  | .refused r => .refused r

section WithTable

variable (table : List Slot) (s : State)

theorem raise_withTable (e : ErrorKind) : raise e (withTable table s) = onNext (withTable table) (raise e s) := rfl

theorem takeBytes_withTable (gs : List Nat) (k : State → Answer)
    (hk : ∀ s, k (withTable table s) = onNext (withTable table) (k s)) :
    takeBytes gs (withTable table s) k = onNext (withTable table) (takeBytes gs s k) := by
  induction gs generalizing s with
  | nil => exact hk s
  | cons n gs ih =>
    rw [takeBytes, takeBytes, apply_ite (onNext (withTable table)), ← ih { s with ip := s.ip + n }]
    rfl

theorem chunkCopy_withTable (data : List Byte) :
    chunkCopy data (withTable table s) = onNext (withTable table) (chunkCopy data s) := by
  simp only [chunkCopy, apply_ite (onNext (withTable table))]
  rfl

theorem matchCopy_withTable (dist L : Nat) :
    matchCopy dist L (withTable table s) = onNext (withTable table) (matchCopy dist L s) := by
  simp only [matchCopy, apply_ite (onNext (withTable table))]
  rfl

/-- A match token reads its bytes and copies; neither touches the table. -/
theorem matchToken_withTable (gs : List Nat) (dist L : Nat) :
    takeBytes gs (withTable table s) (matchCopy dist L) =
      onNext (withTable table) (takeBytes gs s (matchCopy dist L)) :=
  takeBytes_withTable table s gs _ fun s => matchCopy_withTable table s dist L

/-- No token reads or writes the hash table. -/
theorem exec_withTable (i : Instr) : exec i (withTable table s) = onNext (withTable table) (exec i s) := by
  cases i with
  | lit0 tag data =>
    exact takeBytes_withTable table s [1] _ fun s => chunkCopy_withTable table (clearFirst s) data
  | lit data => exact takeBytes_withTable table s [1] _ fun s => chunkCopy_withTable table s data
  | m1s lc dh dl => exact matchToken_withTable table s _ _ _
  | m1l dh e dl => exact matchToken_withTable table s _ _ _
  | m2ns lc dh dl => exact matchToken_withTable table s _ _ _
  | m2nl dh conts last dl => exact matchToken_withTable table s _ _ _
  | m2fs lc fh fl => exact matchToken_withTable table s _ _ _
  | m2fl conts last fh fl => exact matchToken_withTable table s _ _ _
  | tagRsv23 tag low => exact raise_withTable table s _
  | tagRsv47 tag low => exact raise_withTable table s _

theorem inBytes_withTable (a n : Nat) : inBytes (withTable table s) a n = inBytes s a n := by
  induction n generalizing a with
  | zero => rfl
  | succ n ih => exact congrArg (readIn s a :: ·) (ih (a + 1))

theorem startDecompress_withTable : perform (startDecompressPlan (withTable table s)) =
    onNext (withTable table) (perform (startDecompressPlan s)) := by
  have hread : readIn (withTable table s) 0 = readIn s 0 := rfl
  have hlen : (withTable table s).inLen = s.inLen := rfl
  simp only [startDecompressPlan, hread, hlen]
  split
  · exact raise_withTable table s _
  · split
    · next i _ => exact exec_withTable table s i
    · rfl

theorem tokenPlan_withTable :
    perform (tokenPlan (withTable table s)) = onNext (withTable table) (perform (tokenPlan s)) := by
  have hcontext : tokenContext (withTable table s) = tokenContext s := rfl
  have hwindow : tokenWindow (withTable table s) = tokenWindow s := inBytes_withTable table s _ _
  simp only [tokenPlan, hcontext, hwindow]
  split
  · next i _ _ => exact exec_withTable table s i
  · next r _ => exact raise_withTable table (clearFirst { s with ip := s.ip + r.used }) _

/-- The core in DECOMPRESS moves as it does with any other table. -/
theorem coreStep_withTable (hp : s.phase = .busy) (hc : s.cmd = .decompress) :
    coreStep (withTable table s) = onNext (withTable table) (coreStep s) := by
  cases hq : s.seq with
  | start =>
    rw [coreStep_decompress_start hp hc hq, coreStep_decompress_start (s := withTable table s) hp hc hq]
    exact startDecompress_withTable table s
  | body =>
    rw [coreStep_decompress_body hp hc hq, coreStep_decompress_body (s := withTable table s) hp hc hq,
      apply_ite (onNext (withTable table)), ← tokenPlan_withTable]
    rfl

end WithTable

/-! ## What a step inside a command does to LEVEL, IP and OP (10_state.md R22, R23, R25) -/

/-- LEVEL stays, IP and OP do not go back, and IP stays within IN. -/
structure Advances (s t : State) : Prop where
  level : t.level = s.level
  ip : s.ip ≤ t.ip
  op : s.op ≤ t.op
  ipLe : s.ip ≤ s.inLen → t.ip ≤ t.inLen

/-- The end on an error, with IP moved forward to the byte that is missing. -/
theorem raise_advances {s t : State} {e : ErrorKind} {j : Nat} {b : Bool} (hj : s.ip ≤ j)
    (hle : s.ip ≤ s.inLen → j ≤ s.inLen) (h : raise e { s with ip := j, first := b } = .next t) : Advances s t := by
  obtain rfl := Host.Outcome.next.inj h
  exact ⟨rfl, hj, Nat.le_refl _, hle⟩

theorem withinOut_eq_next {s t : State} (h : withinOut s = .next t) : s = t := by
  unfold withinOut at h
  split_ifs at h
  exact Host.Outcome.next.inj h

theorem scanStep_advances {s t : State} (hip : s.ip + 4 ≤ s.inLen) (h : scanStep s = .next t) : Advances s t := by
  rcases scanStep_cases s with hs | ⟨distance, L, hf, hs⟩
  · rw [hs] at h
    obtain rfl := Host.Outcome.next.inj h
    exact ⟨rfl, Nat.le_succ _, Nat.le_refl _, fun _ => show s.ip + 1 ≤ s.inLen by omega⟩
  · obtain ⟨_, h4, hend⟩ := find_bounds hf
    have hcov := (matchTokens_covered_bounds s.level distance h4).2
    rw [hs] at h
    obtain rfl := withinOut_eq_next h
    exact ⟨rfl, Nat.le_add_right _ _, Nat.le_add_right _ _, fun _ => show s.ip + _ ≤ s.inLen by omega⟩

theorem finishCompress_advances {s t : State} (h : finishCompress s = .next t) : Advances s t := by
  obtain rfl := withinOut_eq_next h
  exact ⟨rfl, Nat.le_refl _, Nat.le_add_right _ _, id⟩

theorem exec_advances {s t : State} {i : Instr} (h : exec i s = .next t) : Advances s t := by
  rcases exec_cases i s with ⟨e, j, b, hj, _, hle, he⟩ | ⟨u, he, hframe, hip, hle, _, _, happ⟩
  · rw [he] at h
    exact raise_advances hj hle h
  · rw [he] at h
    obtain rfl := Host.Outcome.next.inj h
    have hlevel : u.level = s.level := by rw [hframe]
    have hlen : u.inLen = s.inLen := by rw [hframe]
    exact ⟨hlevel, by omega, happ.opLe, fun _ => by omega⟩

theorem tokenPlan_advances {s t : State} (hip : s.ip < s.inLen) (h : perform (tokenPlan s) = .next t) :
    Advances s t := by
  rcases tokenPlan_cases s with ⟨i, rest, _, hs⟩ | ⟨r, hdec, hs⟩
  · rw [hs] at h
    exact exec_advances h
  · have hused := decode_error_used_le hdec
    rw [tokenWindow_length] at hused
    rw [hs] at h
    exact raise_advances (Nat.le_add_right _ _) (fun _ => by omega) h

/-- A running command after its start only advances. -/
theorem coreStep_body_advances {s t : State} (hp : s.phase = .busy) (hq : s.seq = .body) (h : coreStep s = .next t) :
    Advances s t := by
  cases hc : s.cmd with
  | none =>
    rw [coreStep_noCommand hp hc] at h
    cases h
  | compress =>
    rw [coreStep_compress_body hp hc hq] at h
    split_ifs at h with hip
    · exact scanStep_advances hip h
    · exact finishCompress_advances h
  | decompress =>
    rw [coreStep_decompress_body hp hc hq] at h
    split_ifs at h with hip
    · exact tokenPlan_advances hip h
    · obtain rfl := Host.Outcome.next.inj h
      exact ⟨rfl, Nat.le_refl _, Nat.le_refl _, id⟩

end Sys2Proof.Machine

/-! ## The invariant of the machine is kept by the core and by the host -/

namespace Sys2Proof.Safety

open Sys2Proof.Machine

/-- An answer that is a state of the invariant: no fault, no refusal. -/
def AnswersInv (a : Answer) : Prop := ∃ t, a = .next t ∧ Inv t

theorem busyInv_compress_start {s : State} (hc : s.cmd = .compress) (hq : s.seq = .start) :
    BusyInv s ↔ 2 * s.inLen ≤ s.outCap := by
  simp [BusyInv, hc, hq]

theorem busyInv_compress_body {s : State} (hc : s.cmd = .compress) (hq : s.seq = .body) :
    BusyInv s ↔ CompressInv s := by
  simp [BusyInv, hc, hq]

theorem busyInv_decompress_body {s : State} (hc : s.cmd = .decompress) (hq : s.seq = .body) :
    BusyInv s ↔ DecompressInv s := by
  simp [BusyInv, hc, hq]

/-- The host's coming moves are no part of the invariant. -/
theorem BusyInv.withHost {s : State} (h : BusyInv s) (moves : List HostOp) : BusyInv { s with host := moves } := by
  cases hc : s.cmd with
  | none => simp [BusyInv, hc] at h
  | compress =>
    cases hq : s.seq with
    | start => exact (busyInv_compress_start hc hq).1 h
    | body => exact show CompressInv _ from { (busyInv_compress_body hc hq).1 h with }
  | decompress =>
    cases hq : s.seq with
    | start => trivial
    | body => exact show DecompressInv _ from { (busyInv_decompress_body hc hq).1 h with }

theorem Inv.withHost {s : State} (h : Inv s) (moves : List HostOp) : Inv { s with host := moves } :=
  ⟨h.memories, fun hp => (h.busy hp).withHost moves, h.done⟩

theorem inv_of_busy {s : State} (hm : MemoriesWf s) (hp : s.phase = .busy) (hb : BusyInv s) : Inv s :=
  ⟨hm, fun _ => hb, fun hd => by simp [hp] at hd⟩

theorem inv_of_compressInv {s : State} (hm : MemoriesWf s) (hp : s.phase = .busy) (hc : s.cmd = .compress)
    (hq : s.seq = .body) (h : CompressInv s) : Inv s :=
  inv_of_busy hm hp ((busyInv_compress_body hc hq).2 h)

theorem inv_of_decompressInv {s : State} (hm : MemoriesWf s) (hp : s.phase = .busy) (hc : s.cmd = .decompress)
    (hq : s.seq = .body) (h : DecompressInv s) : Inv s :=
  inv_of_busy hm hp ((busyInv_decompress_body hc hq).2 h)

/-- The end of a command on an error: OUT is free again, and there is no result. -/
theorem raise_answersInv {s : State} (hm : MemoriesWf s) (e : ErrorKind) : AnswersInv (raise e s) :=
  ⟨_, rfl, memoriesWf_forgetOut (s := s) hm, fun hb => by simp at hb, fun _ hok => by cases e <;> simp [errorCode] at hok⟩

/-- The end of a command that succeeds: its result is OUT below OP. -/
theorem inv_succeed {s : State} (hm : MemoriesWf s) (hw : WrittenBelow s s.op) : Inv (succeed s) :=
  ⟨hm, fun hb => by simp at hb, fun _ _ => hw⟩

theorem withinOut_answersInv {s : State} (hop : s.op ≤ s.outCap) (h : Inv s) : AnswersInv (withinOut s) :=
  ⟨s, if_neg (by omega), h⟩

/-! OUT below OP stays written. -/

theorem WrittenBelow.appended {s t : State} (hw : WrittenBelow s s.op) (h : Appended s t) : WrittenBelow t t.op := by
  intro a ha
  by_cases hlt : a < s.op
  · rw [h.same a (.inl hlt)]
    exact hw a hlt
  · exact h.written a (by omega) ha

theorem WrittenBelow.writeOut {s : State} {n : Nat} (hw : WrittenBelow s n) (i : Nat) (b : Byte) :
    WrittenBelow (writeOut s i b) n := by
  intro a ha
  rw [writeOut_outMem, Memory.read_write]
  split
  · rfl
  · exact hw a ha

/-! ### COMPRESS -/

theorem SlotsBefore.writeSlot {s : State} {p q : Nat} (h : SlotsBefore s p) (hpq : p < q) (i : Nat) :
    SlotsBefore (writeSlot s i p) q := by
  intro j
  rw [readSlot_writeSlot]
  split
  · exact .inr hpq
  · exact (h j).imp_right fun hj => by omega

theorem startCompress_answersInv {s : State} (hm : MemoriesWf s) (hp : s.phase = .busy) (hc : s.cmd = .compress)
    (hroom : 2 * s.inLen ≤ s.outCap) : AnswersInv (startCompress s) := by
  unfold startCompress
  split
  · exact raise_answersInv hm _
  · next hne =>
    refine ⟨_, rfl, ?_⟩
    exact inv_of_compressInv ⟨hm.1, hm.2.1, slotsWf_nil⟩ hp hc rfl {
      nonempty := Nat.pos_of_ne_zero hne
      room := hroom
      levelChosen := rfl
      anchorLe := Nat.le_refl _
      ipLe := Nat.zero_le _
      opLe := Nat.zero_le _
      opPos := id
      written := fun _ h => absurd h (Nat.not_lt_zero _)
      firstLiteral := fun h => absurd h (by simp)
      slots := fun _ => .inl rfl }

/-- A pending run costs at most as much again as it is long (44_dispatcher.md R204). -/
theorem literalBytes_pendingRun_length_le (s : State) (b : Nat) :
    (literalBytes (pendingRun s b)).length ≤ 2 * (b - s.anchor) := by
  rw [literalBytes_length, pendingRun_length]
  omega

/-- Where nothing has been emitted ANCHOR is 0, so the pending run before a later position is not empty. -/
theorem CompressInv.pendingRun_head {s : State} (h : CompressInv s) (hop : s.op = 0) {b : Nat} (hb : 1 ≤ b) :
    ∃ c rest, literalBytes (pendingRun s b) = c :: rest ∧ c.toNat < 32 := by
  have hanchor := h.opPos
  exact literalBytes_head (by rw [pendingRun_length]; omega)

/-- Emitting bytes keeps the first token a literal, where the first bytes ever emitted begin with one. -/
theorem firstLiteral_emitBytes {s : State} {bs : List Byte} (h : 1 ≤ s.op → (readOut s 0).toNat < 32)
    (hbs : s.op = 0 → ∃ c rest, bs = c :: rest ∧ c.toNat < 32) : (readOut (emitBytes bs s) 0).toNat < 32 := by
  rw [readOut_emitBytes]
  split
  · next hin =>
    obtain ⟨c, rest, rfl, hc⟩ := hbs (by omega)
    simpa using hc
  · next hout =>
    refine h (Nat.pos_of_ne_zero fun hop => hout ?_)
    obtain ⟨c, rest, rfl, _⟩ := hbs hop
    simp [hop]

/-- A scan position without a match (40_match_finder.md R112). -/
theorem CompressInv.advance {s : State} (h : CompressInv s) (hip : s.ip < s.inLen) (i : Nat) :
    CompressInv { writeSlot s i s.ip with ip := s.ip + 1 } where
  nonempty := h.nonempty
  room := h.room
  levelChosen := h.levelChosen
  anchorLe := Nat.le_succ_of_le h.anchorLe
  ipLe := hip
  opLe := h.opLe
  opPos := h.opPos
  written := h.written
  firstLiteral := h.firstLiteral
  slots := h.slots.writeSlot (Nat.lt_succ_self _) i

theorem matchEmitted_op (s : State) (distance L : Nat) : (matchEmitted s distance L).op =
    s.op + (literalBytes (pendingRun s s.ip)).length + (matchTokens s.level distance L).1.length := by
  simp [matchEmitted, Nat.add_assoc]

theorem appended_matchEmitted (s : State) (distance L : Nat) : Appended s (matchEmitted s distance L) :=
  (appended_emitBytes _ _).of_eq rfl rfl

/-- A scan position with a match: the run and the tokens cost at most twice what they cover (44_dispatcher.md R204). -/
theorem CompressInv.matchEmitted {s : State} (h : CompressInv s) {distance L : Nat}
    (hf : (find s s.ip).1 = .matched distance L) : CompressInv (matchEmitted s distance L) := by
  obtain ⟨hip, h4, hend⟩ := find_bounds hf
  obtain ⟨hcov, hcovL⟩ := matchTokens_covered_bounds s.level distance h4
  have htokens := matchTokens_length_le s.level distance h4
  have hrun := literalBytes_pendingRun_length_le s s.ip
  have hanchor := h.anchorLe
  have hopLe := h.opLe
  have hhead : s.op = 0 → ∃ c rest, literalBytes (pendingRun s s.ip) ++ (matchTokens s.level distance L).1 = c :: rest ∧
      c.toNat < 32 := fun hop => by
    obtain ⟨c, rest, hc, hlt⟩ := h.pendingRun_head hop hip
    exact ⟨c, rest ++ _, by rw [hc]; rfl, hlt⟩
  exact {
    nonempty := h.nonempty
    room := h.room
    levelChosen := h.levelChosen
    anchorLe := Nat.le_refl _
    ipLe := show s.ip + _ ≤ s.inLen by omega
    opLe := by
      rw [matchEmitted_op]
      exact show _ ≤ 2 * (s.ip + (matchTokens s.level distance L).2) by omega
    opPos := fun _ => by
      rw [matchEmitted_op]
      by_cases hop : s.op = 0
      · obtain ⟨c, rest, hc, _⟩ := h.pendingRun_head hop hip
        rw [hc, List.length_cons]
        omega
      · omega
    written := h.written.appended (appended_matchEmitted s distance L)
    firstLiteral := fun _ => firstLiteral_emitBytes h.firstLiteral hhead
    slots := h.slots.writeSlot (show s.ip < s.ip + _ by omega) _ }

theorem CompressInv.op_le_outCap {s : State} (h : CompressInv s) : s.op ≤ s.outCap := by
  obtain ⟨_, hroom, _, hanchor, hip, hop, _, _, _, _⟩ := h
  omega

theorem scanStep_answersInv {s : State} (hm : MemoriesWf s) (hp : s.phase = .busy) (hc : s.cmd = .compress)
    (hq : s.seq = .body) (h : CompressInv s) (hip : s.ip + 4 ≤ s.inLen) : AnswersInv (scanStep s) := by
  have hslot := memoriesWf_writeSlot hm (hashAt_lt s s.ip) s.ip
  rcases scanStep_cases s with hs | ⟨distance, L, hf, hs⟩
  · rw [hs]
    refine ⟨_, rfl, ?_⟩
    exact inv_of_compressInv hslot hp hc hq (h.advance (by omega) _)
  · rw [hs]
    have hinv := h.matchEmitted hf
    exact withinOut_answersInv hinv.op_le_outCap
      (inv_of_compressInv (memoriesWf_emitBytes hslot _) hp hc hq hinv)

theorem finishCompress_answersInv {s : State} (hm : MemoriesWf s) (h : CompressInv s) :
    AnswersInv (finishCompress s) := by
  have hrun := literalBytes_pendingRun_length_le s s.inLen
  obtain ⟨_, hroom, _, hanchor, hip, hop, _, hwritten, _, _⟩ := h
  refine withinOut_answersInv (show s.op + _ ≤ s.outCap by omega) (inv_succeed ?_ ?_)
  · exact memoriesWf_writeOut (memoriesWf_emitBytes hm _) _ _
  · exact (hwritten.appended (appended_emitBytes _ s)).writeOut _ _

/-! ### DECOMPRESS -/

theorem startDecompress_answersInv {s : State} (hm : MemoriesWf s) (hp : s.phase = .busy) (hc : s.cmd = .decompress) :
    AnswersInv (perform (startDecompressPlan s)) := by
  rcases startDecompress_cases s with ⟨e, hs⟩ | ⟨hne, htag, hs⟩
  · rw [hs]
    exact raise_answersInv hm e
  · rw [hs]
    refine ⟨_, rfl, ?_⟩
    exact inv_of_decompressInv hm hp hc rfl {
      nonempty := hne
      tagKnown := htag
      levelChosen := rfl
      ipLe := Nat.zero_le _
      opLe := Nat.zero_le _
      written := fun _ h => absurd h (Nat.not_lt_zero _)
      firstAtZero := fun _ => ⟨rfl, rfl⟩ }

/-- A token that completes, FIRST cleared, keeps what DECOMPRESS has between two tokens. -/
theorem DecompressInv.completes {s t : State} (h : DecompressInv s) (hframe : TokenFrame s t) (hip : t.ip ≤ s.inLen)
    (hop : t.op ≤ s.outCap) (hfirst : t.first = false) (happ : Appended s t) : DecompressInv t := by
  have hwritten := h.written.appended happ
  rw [hframe] at hwritten ⊢
  exact {
    nonempty := h.nonempty
    tagKnown := h.tagKnown
    levelChosen := h.levelChosen
    ipLe := hip
    opLe := hop
    written := hwritten
    firstAtZero := fun hf => by simp [hfirst] at hf }

/-- A token that is decoded and run where FIRST stands as the decoder read it. -/
theorem exec_answersInv {s : State} {i : Instr} {rest : List Byte} (hm : MemoriesWf s) (hp : s.phase = .busy)
    (hc : s.cmd = .decompress) (hq : s.seq = .body) (h : DecompressInv s) (hlt : s.ip < s.inLen)
    (hdec : decode (tokenContext s) (tokenWindow s) = .ok (i, rest)) : AnswersInv (exec i s) := by
  rcases exec_cases i s with ⟨e, j, b, _, _, _, he⟩ | ⟨t, he, hframe, _, hip, hop, hfirst, happ⟩
  · rw [he]
    exact raise_answersInv (s := { s with ip := j, first := b }) hm e
  · have hpt : t.phase = .busy := by rw [hframe]; exact hp
    have hclear : t.first = false := by
      cases hsf : s.first with
      | false => rcases hfirst with hf | hf <;> simp [hf, hsf]
      | true => exact (exec_firstToken (ctx := tokenContext s) hsf hdec hlt he).resolve_left (by simp [hpt])
    have hinv := h.completes hframe hip hop hclear happ
    refine ⟨t, he, inv_of_decompressInv ?_ hpt ?_ ?_ hinv⟩
    · have hout := happ.wf hm.2.1
      rw [hframe] at hout ⊢
      exact ⟨hm.1, hout, hm.2.2⟩
    · rw [hframe]; exact hc
    · rw [hframe]; exact hq

theorem tokenStep_answersInv {s : State} (hm : MemoriesWf s) (hp : s.phase = .busy) (hc : s.cmd = .decompress)
    (hq : s.seq = .body) (h : DecompressInv s) (hlt : s.ip < s.inLen) : AnswersInv (perform (tokenPlan s)) := by
  rcases tokenPlan_cases s with ⟨i, rest, hdec, hs⟩ | ⟨r, _, hs⟩
  · rw [hs]
    exact exec_answersInv hm hp hc hq h hlt hdec
  · rw [hs]
    exact raise_answersInv (s := clearFirst { s with ip := s.ip + r.used }) hm _

/-! ### The core and the host -/

/-- From a state of the invariant the core moves to one, without a fault. -/
theorem coreStep_answersInv {s : State} (h : Inv s) : AnswersInv (coreStep s) := by
  by_cases hp : s.phase = .busy
  · have hbusy := h.busy hp
    cases hc : s.cmd with
    | none => simp [BusyInv, hc] at hbusy
    | compress =>
      cases hq : s.seq with
      | start =>
        rw [coreStep_compress_start hp hc hq]
        exact startCompress_answersInv h.memories hp hc ((busyInv_compress_start hc hq).1 hbusy)
      | body =>
        have hinv := (busyInv_compress_body hc hq).1 hbusy
        rw [coreStep_compress_body hp hc hq]
        split
        · next hip => exact scanStep_answersInv h.memories hp hc hq hinv hip
        · exact finishCompress_answersInv h.memories hinv
    | decompress =>
      cases hq : s.seq with
      | start =>
        rw [coreStep_decompress_start hp hc hq]
        exact startDecompress_answersInv h.memories hp hc
      | body =>
        have hinv := (busyInv_decompress_body hc hq).1 hbusy
        rw [coreStep_decompress_body hp hc hq]
        split
        · next hlt => exact tokenStep_answersInv h.memories hp hc hq hinv hlt
        · exact ⟨_, rfl, inv_succeed h.memories hinv.written⟩
  · rw [coreStep_waits hp]
    exact ⟨s, rfl, h⟩

/-- A reset reaches the invariant from any state. -/
theorem inv_resetNow (s : State) : Inv (resetNow s) :=
  ⟨memoriesWf_reset, fun hb => by simp [resetNow, State.reset] at hb, fun hd => by simp [resetNow, State.reset] at hd⟩

theorem inv_launch {s : State} (h : Inv s) {c : Command} (hb : BusyInv (launch c s)) : Inv (launch c s) :=
  inv_of_busy (memoriesWf_forgetOut (s := s) h.memories) rfl hb

/-- Every move of the host keeps the invariant. -/
theorem Inv.hostEffect {s t : State} (h : Inv s) (he : HostEffect s t) : Inv t := by
  cases he with
  | nothing => exact h
  | reset => exact inv_resetNow s
  | writeIn i b hp => exact ⟨memoriesWf_writeIn h.memories i b, fun hb => absurd hb hp, h.done⟩
  | writeOut i b hp =>
    exact ⟨memoriesWf_writeOut h.memories i b, fun hb => absurd hb hp, fun hd hok => (h.done hd hok).writeOut i b⟩
  | writeInLen n hp => exact ⟨h.memories, fun hb => absurd hb hp, h.done⟩
  | writeOutCap n hp => exact ⟨h.memories, fun hb => absurd hb hp, h.done⟩
  | compress hp room => exact inv_launch h room
  | decompress hp => exact inv_launch h trivial

end Sys2Proof.Safety

/-! ## The statements about the state -/

namespace Sys2Proof.Proofs

open Sys2Proof.Machine Sys2Proof.Safety

/-- Settles O54: a step is the core's move or a host move, and each of the two keeps the invariant. -/
theorem stepKeepsInv : Obligations.StepKeepsInv := by
  intro s t h hstep
  rcases step_cases s with ⟨moves, hs⟩ | ⟨m, rest, _, hs⟩
  · obtain ⟨u, hu, hinv⟩ := coreStep_answersInv (h.withHost moves)
    rw [hs, hu] at hstep
    obtain rfl := Host.Outcome.next.inj hstep
    exact hinv
  · rw [hs] at hstep
    exact (h.withHost rest).hostEffect (hostMove_effect hstep)

/-- Settles O26: the core's move commutes with putting another table in place. -/
theorem decompressNeverReadsTheTable : Obligations.DecompressNeverReadsTheTable := by
  intro s t q table hturn hstep
  obtain ⟨hhost, hp, hc, _⟩ := hturn
  rw [step_eq_coreStep hhost] at hstep
  have hswap := coreStep_withTable table s hp hc
  rw [hstep] at hswap
  exact (step_eq_coreStep (s := withTable table s) hhost).trans hswap

/-- Settles O57: each kind of step inside a command advances. -/
theorem commandOnlyAdvances : Obligations.CommandOnlyAdvances := by
  intro s t c hturn hstep
  obtain ⟨hhost, hp, _, hq⟩ := hturn
  rw [step_eq_coreStep hhost] at hstep
  obtain ⟨hlevel, hip, hop, hle⟩ := coreStep_body_advances hp hq hstep
  exact ⟨hlevel, hip, hop, hle⟩

/-- Settles O51: with no host move pending the step is the core's, which waits. -/
theorem coreWaitsOutsideBusy : Obligations.CoreWaitsOutsideBusy := by
  intro s hhost hp
  rw [step_eq_coreStep hhost]
  exact coreStep_waits hp

/-- Settles O49: the registers as `State.reset` sets them, and a core that is not BUSY. -/
theorem resetLeavesIdle : Obligations.ResetLeavesIdle :=
  ⟨rfl, rfl, rfl, rfl, rfl, coreWaitsOutsideBusy State.reset rfl (by decide)⟩

/-- Settles O52: the code is below 4, and done adds 4. -/
theorem statusFields : Obligations.StatusFields := by
  intro s
  have hcode : codeNumber s.code < 4 := by cases s.code <;> decide
  by_cases hd : s.phase = .done
  · have hword : statusWord s = codeNumber s.code + 4 := by simp [statusWord, statusDone, hd]
    exact ⟨by omega, by omega, iff_of_true (by omega) hd, rfl, rfl, rfl, rfl⟩
  · have hword : statusWord s = codeNumber s.code := by simp [statusWord, statusDone, hd]
    exact ⟨by omega, by omega, iff_of_false (by omega) hd, rfl, rfl, rfl, rfl⟩

/-- Settles O53: the memories are empty, and the machine is neither BUSY nor DONE. -/
theorem invHoldsAtReset : Obligations.InvHoldsAtReset where
  memories := memoriesWf_reset
  busy h := by cases h
  done h := by cases h

end Sys2Proof.Proofs

/-! ## The host's side of the state: what no move of the core writes (20_memory.md R51, R61) -/

namespace Sys2Proof.Machine

/-- IN, the registers the host alone writes, what the core is built with, and the host's coming moves. -/
def hostSide (s : State) :
    List Host.Cell × Nat × Nat × Nat × Command × Config.HashChoice × Config.IfaceMap × List HostOp :=
  (s.inMem, s.inFill, s.inLen, s.outCap, s.cmd, s.hash, s.iface, s.host)

section HostSide

variable {s t : State}

theorem raise_hostSide {e : ErrorKind} (h : raise e s = .next t) : hostSide t = hostSide s := by
  obtain rfl := Host.Outcome.next.inj h
  rfl

theorem startCompress_hostSide (h : startCompress s = .next t) : hostSide t = hostSide s := by
  unfold startCompress at h
  split_ifs at h
  · exact raise_hostSide h
  · obtain rfl := Host.Outcome.next.inj h
    rfl

theorem scanStep_hostSide (h : scanStep s = .next t) : hostSide t = hostSide s := by
  rcases scanStep_cases s with hs | ⟨distance, L, _, hs⟩
  · rw [hs] at h
    obtain rfl := Host.Outcome.next.inj h
    rfl
  · rw [hs] at h
    obtain rfl := withinOut_eq_next h
    rfl

theorem finishCompress_hostSide (h : finishCompress s = .next t) : hostSide t = hostSide s := by
  obtain rfl := withinOut_eq_next h
  rfl

theorem exec_hostSide {i : Instr} (h : exec i s = .next t) : hostSide t = hostSide s := by
  rcases exec_cases i s with ⟨e, j, b, _, _, _, he⟩ | ⟨u, he, hframe, _⟩
  · exact raise_hostSide (s := { s with ip := j, first := b }) (he.symm.trans h)
  · obtain rfl := Host.Outcome.next.inj (he.symm.trans h)
    rw [hframe]
    rfl

theorem startDecompress_hostSide (h : perform (startDecompressPlan s) = .next t) : hostSide t = hostSide s := by
  rcases startDecompress_cases s with ⟨e, hs⟩ | ⟨_, _, hs⟩
  · exact raise_hostSide (hs.symm.trans h)
  · obtain rfl := Host.Outcome.next.inj (hs.symm.trans h)
    rfl

theorem tokenPlan_hostSide (h : perform (tokenPlan s) = .next t) : hostSide t = hostSide s := by
  rcases tokenPlan_cases s with ⟨i, rest, _, hs⟩ | ⟨r, _, hs⟩
  · exact exec_hostSide (hs.symm.trans h)
  · exact raise_hostSide (s := clearFirst { s with ip := s.ip + r.used }) (hs.symm.trans h)

/-- No move of the core writes the host's side. -/
theorem coreStep_hostSide (h : coreStep s = .next t) : hostSide t = hostSide s := by
  by_cases hp : s.phase = .busy
  · cases hc : s.cmd with
    | none =>
      rw [coreStep_noCommand hp hc] at h
      cases h
    | compress =>
      cases hq : s.seq with
      | start =>
        rw [coreStep_compress_start hp hc hq] at h
        exact startCompress_hostSide h
      | body =>
        rw [coreStep_compress_body hp hc hq] at h
        split_ifs at h
        · exact scanStep_hostSide h
        · exact finishCompress_hostSide h
    | decompress =>
      cases hq : s.seq with
      | start =>
        rw [coreStep_decompress_start hp hc hq] at h
        exact startDecompress_hostSide h
      | body =>
        rw [coreStep_decompress_body hp hc hq] at h
        split_ifs at h
        · exact tokenPlan_hostSide h
        · obtain rfl := Host.Outcome.next.inj h
          rfl
  · rw [coreStep_waits hp] at h
    obtain rfl := Host.Outcome.next.inj h
    rfl

end HostSide

end Sys2Proof.Machine

/-! ## A token works on its own part of the state (41_literal.md R133, 42_level1.md R157, 60_exceptions.md R224) -/

namespace Sys2Proof.Machine

/-- The state `r` with every field that a token reads or writes taken from `s`. -/
def withTokenPart (r s : State) : State :=
  { r with
    inLen := s.inLen, outCap := s.outCap, code := s.code, outLen := s.outLen, phase := s.phase, ip := s.ip, op := s.op
    first := s.first, outMem := s.outMem, outFill := s.outFill, draws := s.draws }

section TokenPart

variable (r s : State)

theorem raise_withTokenPart (e : ErrorKind) :
    raise e (withTokenPart r s) = onNext (withTokenPart r) (raise e s) := rfl

theorem takeBytes_withTokenPart (gs : List Nat) (k : State → Answer)
    (hk : ∀ s, k (withTokenPart r s) = onNext (withTokenPart r) (k s)) :
    takeBytes gs (withTokenPart r s) k = onNext (withTokenPart r) (takeBytes gs s k) := by
  induction gs generalizing s with
  | nil => exact hk s
  | cons n gs ih =>
    rw [takeBytes, takeBytes, apply_ite (onNext (withTokenPart r)), ← ih { s with ip := s.ip + n }]
    rfl

theorem chunkCopy_withTokenPart (data : List Byte) :
    chunkCopy data (withTokenPart r s) = onNext (withTokenPart r) (chunkCopy data s) := by
  simp only [chunkCopy, apply_ite (onNext (withTokenPart r))]
  rfl

/-- A match token reads its bytes and copies, both in the token's part. -/
theorem matchToken_withTokenPart (gs : List Nat) (dist L : Nat) :
    takeBytes gs (withTokenPart r s) (matchCopy dist L) =
      onNext (withTokenPart r) (takeBytes gs s (matchCopy dist L)) := by
  refine takeBytes_withTokenPart r s gs _ fun s => ?_
  simp only [matchCopy, apply_ite (onNext (withTokenPart r))]
  rfl

/-- What a token answers is decided by its part of the state, and the rest of the state stays. -/
theorem exec_withTokenPart (i : Instr) :
    exec i (withTokenPart r s) = onNext (withTokenPart r) (exec i s) := by
  cases i with
  | lit0 tag data =>
    exact takeBytes_withTokenPart r s [1] _ fun s => chunkCopy_withTokenPart r (clearFirst s) data
  | lit data => exact takeBytes_withTokenPart r s [1] _ fun s => chunkCopy_withTokenPart r s data
  | m1s lc dh dl => exact matchToken_withTokenPart r s _ _ _
  | m1l dh e dl => exact matchToken_withTokenPart r s _ _ _
  | m2ns lc dh dl => exact matchToken_withTokenPart r s _ _ _
  | m2nl dh conts last dl => exact matchToken_withTokenPart r s _ _ _
  | m2fs lc fh fl => exact matchToken_withTokenPart r s _ _ _
  | m2fl conts last fh fl => exact matchToken_withTokenPart r s _ _ _
  | tagRsv23 tag low => exact raise_withTokenPart r s _
  | tagRsv47 tag low => exact raise_withTokenPart r s _

end TokenPart

theorem onNext_onNext (f g : State → State) (a : Answer) : onNext f (onNext g a) = onNext (fun s => f (g s)) a := by
  cases a <;> rfl

end Sys2Proof.Machine

/-! ## The core and the bytes of IN at or past IN_LEN (20_memory.md R55, 70_reset_and_hazards.md R256) -/

namespace Sys2Proof.Machine

/-- The state with other contents of IN in their place. -/
def withIn (mem : List Host.Cell) (fill : Nat) (s : State) : State := { s with inMem := mem, inFill := fill }

/-- Other contents of IN that read the same below IN_LEN. -/
def SameInput (mem : List Host.Cell) (fill : Nat) (s : State) : Prop :=
  ∀ i < s.inLen, readIn (withIn mem fill s) i = readIn s i

/-- Which result FIND reports: in Level2 that of RUN where there is one, else the judgement of the old occupant
(40_match_finder.md R109). -/
theorem find_result (s : State) (p : Nat) : (find s p).1 =
    if s.level = .two ∧ runShortcut s p ≠ .noMatch then runShortcut s p
    else judge s p (readSlot s (hashAt s p)) := by
  unfold find lookupInsert
  cases hl : s.level with
  | one => rfl
  | two => cases hr : runShortcut s p <;> simp

/-- A scan position without a match writes its slot and moves on (40_match_finder.md R112). -/
theorem scanStep_noMatch {s : State} (h : (find s s.ip).1 = .noMatch) :
    scanStep s = .next { writeSlot s (hashAt s s.ip) s.ip with ip := s.ip + 1 } := by
  rw [scanStep, show find s s.ip = (.noMatch, _) from Prod.ext h (find_state s s.ip)]
  rfl

/-- A scan position with a match emits the pending run and the match (40_match_finder.md R112). -/
theorem scanStep_matched {s : State} {distance L : Nat} (h : (find s s.ip).1 = .matched distance L) :
    scanStep s = withinOut (matchEmitted s distance L) := by
  rw [scanStep, show find s s.ip = (.matched distance L, _) from Prod.ext h (find_state s s.ip)]
  rfl

/-- The state after the end of COMPRESS: the pending run emitted, the level tag in byte 0, the command done. -/
def finished (s : State) : State :=
  let emitted := emitBytes (literalBytes (pendingRun s s.inLen)) s
  succeed (writeOut emitted 0 (readOut emitted 0 ||| tagBits s.level))

theorem finishCompress_eq (s : State) : finishCompress s = withinOut (finished s) := rfl

section WithIn

variable {mem : List Host.Cell} {fill : Nat} {s : State}

@[simp] theorem withIn_inLen : (withIn mem fill s).inLen = s.inLen := rfl
@[simp] theorem withIn_ip : (withIn mem fill s).ip = s.ip := rfl
@[simp] theorem withIn_anchor : (withIn mem fill s).anchor = s.anchor := rfl
@[simp] theorem withIn_level : (withIn mem fill s).level = s.level := rfl

theorem raise_withIn (e : ErrorKind) (s : State) :
    raise e (withIn mem fill s) = onNext (withIn mem fill) (raise e s) := rfl

theorem withinOut_withIn (s : State) :
    withinOut (withIn mem fill s) = onNext (withIn mem fill) (withinOut s) := by
  rw [withinOut, withinOut, apply_ite (onNext (withIn mem fill))]
  rfl

/-- No token reads IN: its bytes came with the decoder. -/
theorem exec_withIn (i : Instr) (s : State) :
    exec i (withIn mem fill s) = onNext (withIn mem fill) (exec i s) := by
  have hkeep : exec i s = onNext (withTokenPart s) (exec i s) := exec_withTokenPart s s i
  calc exec i (withIn mem fill s)
      = onNext (withTokenPart (withIn mem fill s)) (exec i s) := exec_withTokenPart (withIn mem fill s) s i
    _ = onNext (withIn mem fill) (onNext (withTokenPart s) (exec i s)) :=
      (onNext_onNext (withIn mem fill) (withTokenPart s) (exec i s)).symm
    _ = onNext (withIn mem fill) (exec i s) := by rw [← hkeep]

theorem startCompress_withIn (s : State) :
    startCompress (withIn mem fill s) = onNext (withIn mem fill) (startCompress s) := by
  rw [startCompress, startCompress, apply_ite (onNext (withIn mem fill))]
  rfl

/-! What the steps read of IN -/

variable (hsame : SameInput mem fill s)
include hsame

theorem inBytes_withIn {a n : Nat} (h : a + n ≤ s.inLen) : inBytes (withIn mem fill s) a n = inBytes s a n := by
  induction n generalizing a with
  | zero => rfl
  | succ n ih => rw [inBytes, inBytes, hsame a (by omega), ih (by omega)]

theorem pendingRun_withIn {b : Nat} (h : b ≤ s.inLen) : pendingRun (withIn mem fill s) b = pendingRun s b := by
  by_cases hb : s.anchor ≤ b
  · exact inBytes_withIn hsame (show s.anchor + (b - s.anchor) ≤ s.inLen by omega)
  · have hnone : b - s.anchor = 0 := by omega
    simp only [pendingRun, withIn_anchor, hnone, inBytes]

theorem tokenWindow_withIn (h : s.ip ≤ s.inLen) : tokenWindow (withIn mem fill s) = tokenWindow s :=
  inBytes_withIn hsame (show s.ip + (s.inLen - s.ip) ≤ s.inLen by omega)

theorem hashAt_withIn {p : Nat} (h : p + 3 ≤ s.inLen) : hashAt (withIn mem fill s) p = hashAt s p := by
  rw [hashAt, hashAt, hsame p (by omega), hsame (p + 1) (by omega), hsame (p + 2) (by omega)]
  rfl

theorem agree_withIn {a b k n : Nat} (ha : a + k + n ≤ s.inLen) (hb : b + k + n ≤ s.inLen) :
    agree (withIn mem fill s) a b k n = agree s a b k n := by
  induction n generalizing k with
  | zero => rfl
  | succ n ih => rw [agree, agree, hsame (a + k) (by omega), hsame (b + k) (by omega), ih (by omega) (by omega)]

/-- EXTEND compares below IN_LEN only: the earlier position is read where the later one is inside. -/
theorem extendBy_withIn {r p : Nat} (hr : r ≤ p) (fuel k : Nat) :
    extendBy (withIn mem fill s) r p fuel k = extendBy s r p fuel k := by
  induction fuel generalizing k with
  | zero => rfl
  | succ fuel ih =>
    have hread : (p + k < s.inLen ∧ readIn (withIn mem fill s) (r + k) = readIn (withIn mem fill s) (p + k)) ↔
        (p + k < s.inLen ∧ readIn s (r + k) = readIn s (p + k)) :=
      and_congr_right fun hk => by rw [hsame (r + k) (by omega), hsame (p + k) hk]
    rw [extendBy, extendBy, ih]
    exact if_congr hread rfl rfl

theorem extend_withIn {r p : Nat} (hr : r ≤ p) (k : Nat) : extend (withIn mem fill s) r p k = extend s r p k :=
  extendBy_withIn hsame hr _ k

theorem runShortcut_withIn {p : Nat} (h : p + 3 ≤ s.inLen) :
    runShortcut (withIn mem fill s) p = runShortcut s p := by
  rw [runShortcut, runShortcut, hsame p (by omega), hsame (p - 1) (by omega), hsame (p + 1) (by omega),
    hsame (p + 2) (by omega), extend_withIn hsame (by omega)]

theorem judge_withIn {p : Nat} (h : p + 3 ≤ s.inLen) (cand : Nat) :
    judge (withIn mem fill s) p cand = judge s p cand := by
  unfold judge
  by_cases hc : cand = 0 ∨ p ≤ cand
  · rw [if_pos hc, if_pos hc]
  · have hlevel : (withIn mem fill s).level = s.level := rfl
    have hfar : (p + 5 ≤ s.inLen ∧ agree (withIn mem fill s) cand p 3 2 = true) ↔
        (p + 5 ≤ s.inLen ∧ agree s cand p 3 2 = true) :=
      and_congr_right fun h5 => by rw [agree_withIn hsame (by omega) (by omega)]
    rw [if_neg hc, if_neg hc, withIn_level, agree_withIn hsame (k := 0) (by omega) (by omega),
      extend_withIn hsame (by omega), extend_withIn hsame (by omega)]
    simp only [withIn_inLen, hfar]

/-- FIND at a scan position reports the same match. -/
theorem find_result_withIn {p : Nat} (h : p + 3 ≤ s.inLen) : (find (withIn mem fill s) p).1 = (find s p).1 := by
  rw [find_result, find_result, runShortcut_withIn hsame h, judge_withIn hsame h, hashAt_withIn hsame h]
  rfl

/-! The moves of the core -/

theorem matchEmitted_withIn (h : s.ip + 3 ≤ s.inLen) (distance L : Nat) :
    matchEmitted (withIn mem fill s) distance L = withIn mem fill (matchEmitted s distance L) := by
  rw [matchEmitted, withIn_ip, hashAt_withIn hsame h, pendingRun_withIn hsame (by omega)]
  rfl

theorem scanStep_withIn (h : s.ip + 3 ≤ s.inLen) :
    scanStep (withIn mem fill s) = onNext (withIn mem fill) (scanStep s) := by
  have hfind : (find (withIn mem fill s) (withIn mem fill s).ip).1 = (find s s.ip).1 := find_result_withIn hsame h
  cases hf : (find s s.ip).1 with
  | noMatch =>
    rw [scanStep_noMatch hf, scanStep_noMatch (hfind.trans hf), withIn_ip,
      hashAt_withIn hsame h]
    rfl
  | matched distance L =>
    rw [scanStep_matched hf, scanStep_matched (hfind.trans hf), matchEmitted_withIn hsame h]
    exact withinOut_withIn _

theorem finishCompress_withIn :
    finishCompress (withIn mem fill s) = onNext (withIn mem fill) (finishCompress s) := by
  have hrun : pendingRun (withIn mem fill s) s.inLen = pendingRun s s.inLen :=
    pendingRun_withIn hsame (Nat.le_refl _)
  have hfinished : finished (withIn mem fill s) = withIn mem fill (finished s) := by
    rw [finished, withIn_inLen, hrun]
    rfl
  rw [finishCompress_eq, finishCompress_eq, hfinished]
  exact withinOut_withIn _

theorem startDecompress_withIn : perform (startDecompressPlan (withIn mem fill s)) =
    onNext (withIn mem fill) (perform (startDecompressPlan s)) := by
  unfold startDecompressPlan
  rw [withIn_inLen]
  split
  · exact raise_withIn _ s
  · next hne =>
    have hread := hsame 0 (Nat.pos_of_ne_zero hne)
    rw [hread]
    split
    · next i _ => exact exec_withIn i s
    · show Host.Outcome.next (startTokens (withIn mem fill s)) = .next (withIn mem fill (startTokens s))
      rw [startTokens, hread]
      rfl

theorem tokenPlan_withIn (h : s.ip < s.inLen) :
    perform (tokenPlan (withIn mem fill s)) = onNext (withIn mem fill) (perform (tokenPlan s)) := by
  have hcontext : tokenContext (withIn mem fill s) = tokenContext s := rfl
  simp only [tokenPlan, hcontext, tokenWindow_withIn hsame (Nat.le_of_lt h)]
  split
  · next i _ _ => exact exec_withIn i s
  · next r _ => exact raise_withIn _ (clearFirst { s with ip := s.ip + r.used })

/-- The core moves as it does with any other contents of IN at or past IN_LEN. -/
theorem coreStep_withIn : coreStep (withIn mem fill s) = onNext (withIn mem fill) (coreStep s) := by
  by_cases hp : s.phase = .busy
  · cases hc : s.cmd with
    | none => rw [coreStep_noCommand hp hc, coreStep_noCommand (s := withIn mem fill s) hp hc]; rfl
    | compress =>
      cases hq : s.seq with
      | start =>
        rw [coreStep_compress_start hp hc hq, coreStep_compress_start (s := withIn mem fill s) hp hc hq]
        exact startCompress_withIn s
      | body =>
        rw [coreStep_compress_body hp hc hq, coreStep_compress_body (s := withIn mem fill s) hp hc hq]
        show (if s.ip + 4 ≤ s.inLen then _ else _) = _
        split_ifs with hip
        · exact scanStep_withIn hsame (by omega)
        · exact finishCompress_withIn hsame
    | decompress =>
      cases hq : s.seq with
      | start =>
        rw [coreStep_decompress_start hp hc hq, coreStep_decompress_start (s := withIn mem fill s) hp hc hq]
        exact startDecompress_withIn hsame
      | body =>
        rw [coreStep_decompress_body hp hc hq, coreStep_decompress_body (s := withIn mem fill s) hp hc hq]
        show (if s.ip < s.inLen then _ else _) = _
        split_ifs with hip
        · exact tokenPlan_withIn hsame hip
        · rfl
  · rw [coreStep_waits hp, coreStep_waits (s := withIn mem fill s) hp]
    rfl

end WithIn

end Sys2Proof.Machine

/-! ## The start of a command, and the host's writes (44_dispatcher.md R200, R205, 60_exceptions.md R235) -/

namespace Sys2Proof.Machine

open Sys2Proof.Safety

/-- A byte 0 below 40H carries a known level tag (30_encoding.md R71, R85). -/
theorem reservedTag_eq_none {c : Byte} (h : c.toNat < 0x40) : reservedTag c = none := by
  have htag : (highBits c).toNat < 2 := by
    rw [highBits, BitVec.extractLsb'_toNat, Nat.shiftRight_eq_div_pow]
    omega
  rw [reservedTag, if_neg (by omega), if_neg (by omega)]

/-- The start block of COMPRESS over an input that is not empty (44_dispatcher.md R200). -/
theorem step_compress_start {s : State} (hturn : CoreTurn s .compress .start) (hne : 1 ≤ s.inLen) :
    step s = .next { s with
      level := chooseLevel s.inLen, ht := [], ip := 0, op := 0, anchor := 0
      first := Config.freeFirst s.draws, draws := s.draws + 1, seq := .body } := by
  obtain ⟨hhost, hp, hc, hq⟩ := hturn
  rw [step_eq_coreStep hhost, coreStep_compress_start hp hc hq, startCompress, if_neg (by omega)]

/-- The start block of DECOMPRESS with a known tag (44_dispatcher.md R205). -/
theorem step_decompress_start {s : State} (hturn : CoreTurn s .decompress .start) (hne : 1 ≤ s.inLen)
    (hbyte : (readIn s 0).toNat < 0x40) : step s = .next (startTokens s) := by
  obtain ⟨hhost, hp, hc, hq⟩ := hturn
  rw [step_eq_coreStep hhost, coreStep_decompress_start hp hc hq, startDecompressPlan, if_neg (by omega),
    reservedTag_eq_none hbyte]
  rfl

/-- A host move with an effect of its own is the step. -/
theorem step_eq_hostMove {h : HostOp} (hpass : h ≠ .pass) (hwait : h ≠ .waitDone) (s : State) (rest : List HostOp) :
    step { s with host := h :: rest } = hostMove h { s with host := rest } := by
  cases h with
  | pass => exact absurd rfl hpass
  | waitDone => exact absurd rfl hwait
  | _ => rfl

theorem readIn_writeIn (s : State) (i a : Nat) (b : Byte) :
    readIn { s with inMem := Memory.write s.inMem i b } a = if a = i then b else readIn s a := by
  unfold readIn
  simp only [Memory.read_write]
  split <;> rfl

end Sys2Proof.Machine

/-! ## The statements about the memories -/

namespace Sys2Proof.Proofs

open Sys2Proof.Machine Sys2Proof.Safety

/-- Settles O56: the core's move leaves the host's side of the state. -/
theorem coreNeverWritesIn : Obligations.CoreNeverWritesIn := by
  intro s t hhost hstep
  rw [step_eq_coreStep hhost] at hstep
  have hkeep := coreStep_hostSide hstep
  simp only [hostSide, Prod.mk.injEq, hhost] at hkeep
  exact hkeep

/-- Settles O58: the core's move commutes with replacing IN by contents that read the same below IN_LEN. -/
theorem coreReadsOnlyInsideIn : Obligations.CoreReadsOnlyInsideIn := by
  intro s t mem fill hhost hsame hstep
  rw [step_eq_coreStep hhost] at hstep
  have hswap := coreStep_withIn (mem := mem) (fill := fill) hsame
  rw [hstep] at hswap
  exact (step_eq_coreStep (s := withIn mem fill s) hhost).trans hswap

/-- Settles O59: the state after a start block holds none of the values in question. -/
theorem commandStartForgetsTheLastOne : Obligations.CommandStartForgetsTheLastOne := by
  intro s ip op anchor level first table hne
  refine ⟨fun hturn => ?_, fun hturn hbyte => ?_⟩
  · rw [step_compress_start hturn hne]
    exact step_compress_start hturn hne
  · rw [step_decompress_start hturn hne hbyte]
    exact step_decompress_start hturn hne hbyte

/-- Settles O48: a host write outside BUSY takes effect, and an access by address is the one to what is placed there. -/
theorem hostWritesOnlyOutsideBusy : Obligations.HostWritesOnlyOutsideBusy := by
  intro s rest i n b
  have hwrite (hp : s.phase ≠ .busy) (u : State) : whenNotBusy { s with host := rest } u = .next u :=
    whenNotBusy_next u hp
  refine ⟨fun hp h hmem => ?_, fun hp => ⟨?_, ?_, ?_, ?_⟩, fun a v => ?_⟩
  · simp only [List.mem_cons, List.not_mem_nil, or_false] at hmem
    rcases hmem with rfl | rfl | rfl | rfl <;> exact whenNotBusy_refused (s := { s with host := rest }) _ hp
  · exact hwrite hp _
  · exact hwrite hp _
  · exact ⟨_, hwrite hp _, rfl, fun a => readIn_writeIn s i a b⟩
  · exact ⟨_, hwrite hp _, rfl, fun a => readOut_writeOut s i a b⟩
  · rw [step_eq_hostMove (by simp) (by simp)]
    show writeTarget v { s with host := rest } (targetAt s.iface a) = _
    rcases targetAt s.iface a with _ | target
    · rfl
    · cases target <;> rfl

end Sys2Proof.Proofs

/-! ## The token format: control bytes, length bytes and operand fields (30_encoding.md R71 to R82) -/

namespace Sys2Proof

/-- Two operand bytes as one big-endian number (20_memory.md R54). -/
theorem shiftLeft_or_byte (n : Nat) (b : Byte) : n <<< 8 ||| b.toNat = n * 256 + b.toNat := by
  rw [← Nat.shiftLeft_add_eq_or_of_lt b.isLt, Nat.shiftLeft_eq]

theorem highBits_toNat (c : Byte) : (highBits c).toNat = c.toNat / 32 := by
  have := c.isLt
  rw [highBits, BitVec.extractLsb'_toNat, Nat.shiftRight_eq_div_pow]
  omega

theorem lowBits_toNat (c : Byte) : (lowBits c).toNat = c.toNat % 32 := BitVec.toNat_setWidth 5 c

theorem controlByte_toNat (high : BitVec 3) (low : BitVec 5) :
    (controlByte high low).toNat = high.toNat * 32 + low.toNat := by
  rw [controlByte, BitVec.toNat_append, ← Nat.shiftLeft_add_eq_or_of_lt low.isLt, Nat.shiftLeft_eq]

@[simp] theorem highBits_controlByte (high : BitVec 3) (low : BitVec 5) : highBits (controlByte high low) = high := by
  apply BitVec.eq_of_toNat_eq
  have := low.isLt
  rw [highBits_toNat, controlByte_toNat]
  omega

@[simp] theorem lowBits_controlByte (high : BitVec 3) (low : BitVec 5) : lowBits (controlByte high low) = low := by
  apply BitVec.eq_of_toNat_eq
  have := low.isLt
  rw [lowBits_toNat, controlByte_toNat]
  omega

@[simp] theorem controlByte_highBits_lowBits (c : Byte) : controlByte (highBits c) (lowBits c) = c := by
  apply BitVec.eq_of_toNat_eq
  rw [controlByte_toNat, highBits_toNat, lowBits_toNat]
  omega

/-- The control byte as the encoder computes it (42_level1.md R152, 43_level2.md R173). -/
theorem controlByte_ofNat (a : Nat) {b : Nat} (hb : b < 32) :
    controlByte (BitVec.ofNat 3 a) (BitVec.ofNat 5 b) = BitVec.ofNat 8 (a * 32 + b) := by
  apply BitVec.eq_of_toNat_eq
  simp only [controlByte_toNat, BitVec.toNat_ofNat]
  omega

theorem chunkOk_iff {data : List Byte} : chunkOk data = true ↔ 1 ≤ data.length ∧ data.length ≤ 32 := by
  rw [chunkOk, Bool.and_eq_true, decide_eq_true_eq, decide_eq_true_eq]
  rfl

theorem shortCodeOk_iff_ne {lc : BitVec 3} : shortCodeOk lc = true ↔ lc ≠ 0#3 ∧ lc ≠ 7#3 := by
  simp only [shortCodeOk, Bool.and_eq_true, decide_eq_true_eq]

theorem shortCodeOk_iff {lc : BitVec 3} : shortCodeOk lc = true ↔ 1 ≤ lc.toNat ∧ lc.toNat ≤ 6 := by
  have := lc.isLt
  rw [shortCodeOk_iff_ne, ne_eq, ne_eq, ← BitVec.toNat_inj, ← BitVec.toNat_inj, BitVec.toNat_ofNat,
    BitVec.toNat_ofNat]
  omega

theorem terminatorOk_iff {last : Byte} : terminatorOk last = true ↔ last ≠ Config.cont := decide_eq_true_iff

theorem nearOk_iff {dh : BitVec 5} {dl : Byte} : nearOk dh dl = true ↔ ¬ (dl = Config.farMarker ∧ dh = 31#5) := by
  simp only [nearOk, Bool.not_eq_true', Bool.and_eq_false_iff, decide_eq_false_iff_not]
  tauto

/-- The count field of a chunk says its length (30_encoding.md R73). -/
theorem countField_toNat {data : List Byte} (h : chunkOk data = true) :
    (countField data).toNat + 1 = data.length := by
  obtain ⟨h1, h32⟩ := chunkOk_iff.1 h
  rw [countField, BitVec.toNat_ofNat]
  omega

/-- The chunk a count field asks for has the length and the count field it should (30_encoding.md R73). -/
theorem chunk_of_countField {low : BitVec 5} {data : List Byte} (h : data.length = low.toNat + 1) :
    chunkOk data = true ∧ countField data = low := by
  have := low.isLt
  refine ⟨chunkOk_iff.2 (by omega), BitVec.eq_of_toNat_eq ?_⟩
  rw [countField, BitVec.toNat_ofNat]
  omega

/-! ## What each part of the decoder answers, and for which bytes -/

theorem decodeChunk_eq_ok {mk : List Byte → Instr} {cnt : Nat} {bs rest : List Byte} {i : Instr} :
    decodeChunk mk cnt bs = .ok (i, rest) ↔ ∃ data, data.length = cnt ∧ i = mk data ∧ bs = data ++ rest := by
  unfold decodeChunk
  constructor
  · intro h
    split_ifs at h with hcut
    cases h
    exact ⟨bs.take cnt, by rw [List.length_take] at hcut ⊢; omega, rfl, (List.take_append_drop cnt bs).symm⟩
  · rintro ⟨data, rfl, rfl, rfl⟩
    simp

/-- The length bytes end at the first byte below 255 (43_level2.md R184). -/
theorem decodeLength_eq_ok {bs rest : List Byte} {k : Nat} {last : Byte} :
    decodeLength bs = .ok (k, last, rest) ↔ terminatorOk last = true ∧ bs = lengthBytes k last ++ rest := by
  rw [terminatorOk_iff]
  constructor
  · intro h
    induction bs generalizing k with
    | nil => cases h
    | cons c bs ih =>
      rw [decodeLength] at h
      split_ifs at h with hc
      · split at h
        · next j l r hj =>
          cases h
          obtain ⟨hlast, rfl⟩ := ih hj
          exact ⟨hlast, by rw [hc]; rfl⟩
        · cases h
      · cases h
        exact ⟨hc, rfl⟩
  · rintro ⟨hlast, rfl⟩
    induction k with
    | zero => exact if_neg hlast
    | succ k ih =>
      show decodeLength (Config.cont :: (lengthBytes k last ++ rest)) = _
      rw [decodeLength, if_pos rfl, ih]

/-- A Level2 distance is far by the escape, and near otherwise (30_encoding.md R79, R80, R83). -/
theorem decodeDistance2_eq_ok {near : Byte → Instr} {far : Byte → Byte → Instr} {dh : BitVec 5} {used : Nat}
    {bs rest : List Byte} {i : Instr} : decodeDistance2 near far dh used bs = .ok (i, rest) ↔
      (∃ dl, nearOk dh dl = true ∧ i = near dl ∧ bs = dl :: rest) ∨
        ∃ fh fl, dh = 31#5 ∧ i = far fh fl ∧ bs = Config.farMarker :: fh :: fl :: rest := by
  constructor
  · intro h
    unfold decodeDistance2 at h
    split at h
    · cases h
    · next dl tail =>
      split_ifs at h with hfar
      · obtain ⟨rfl, rfl⟩ := hfar
        split at h
        · next fh fl _ =>
          cases h
          exact .inr ⟨fh, fl, rfl, rfl, rfl⟩
        · cases h
      · cases h
        exact .inl ⟨dl, nearOk_iff.2 hfar, rfl, rfl⟩
  · rintro (⟨dl, hnear, rfl, rfl⟩ | ⟨fh, fl, rfl, rfl, rfl⟩)
    · exact if_neg (nearOk_iff.1 hnear)
    · rfl

theorem reservedTag_eq_none_iff {c : Byte} : reservedTag c = none ↔ (highBits c).toNat ≤ 1 := by
  unfold reservedTag
  split_ifs <;> simp <;> omega

theorem tagRsv23_wellFormed_iff {tag : BitVec 3} {low : BitVec 5} :
    (Instr.tagRsv23 tag low).wellFormed = true ↔ 2 ≤ tag.toNat ∧ tag.toNat ≤ 3 := by
  simp only [Instr.wellFormed, Bool.or_eq_true, decide_eq_true_eq, ← BitVec.toNat_inj, BitVec.toNat_ofNat]
  omega

theorem tagRsv47_wellFormed_iff {tag : BitVec 3} {low : BitVec 5} :
    (Instr.tagRsv47 tag low).wellFormed = true ↔ 4 ≤ tag.toNat := decide_eq_true_iff

/-- A reserved tag is read as the one of the two instructions that is well-formed (30_encoding.md R85). -/
theorem reservedTag_eq_some_iff {c : Byte} {i : Instr} : reservedTag c = some i ↔
    (i = .tagRsv23 (highBits c) (lowBits c) ∨ i = .tagRsv47 (highBits c) (lowBits c)) ∧ i.wellFormed = true := by
  constructor
  · intro h
    unfold reservedTag at h
    split_ifs at h with h4 h2
    · cases h
      exact ⟨.inr rfl, tagRsv47_wellFormed_iff.2 h4⟩
    · cases h
      exact ⟨.inl rfl, tagRsv23_wellFormed_iff.2 ⟨h2, by omega⟩⟩
  · rintro ⟨rfl | rfl, hwf⟩
    · have htag := tagRsv23_wellFormed_iff.1 hwf
      rw [reservedTag, if_neg (by omega), if_pos htag.1]
    · exact if_pos (tagRsv47_wellFormed_iff.1 hwf)

/-- `i` is a token of the format, legal under `ctx`, and its bytes followed by `rest` are `bytes`. -/
structure Encodes (ctx : Context) (bytes : List Byte) (i : Instr) (rest : List Byte) : Prop where
  wellFormed : i.wellFormed = true
  legal : legalIn ctx i = true
  bytes : encode i ++ rest = bytes

section Decode

variable {level : Level} {c : Byte} {bs rest : List Byte} {i : Instr}

theorem decode_first : decode ⟨true, level⟩ (c :: bs) = decodeFirst c bs := rfl

theorem decode_literal (h : highBits c = 0#3) :
    decode ⟨false, level⟩ (c :: bs) = decodeChunk .lit ((lowBits c).toNat + 1) bs := if_pos h

theorem decode_match1 (h : highBits c ≠ 0#3) : decode ⟨false, .one⟩ (c :: bs) = decodeMatch1 c bs := if_neg h

theorem decode_match2 (h : highBits c ≠ 0#3) : decode ⟨false, .two⟩ (c :: bs) = decodeMatch2 c bs := if_neg h

theorem decodeFirst_eq_ok : decodeFirst c bs = .ok (i, rest) ↔
    reservedTag c = some i ∧ bs = rest ∨
      (highBits c).toNat ≤ 1 ∧
        ∃ data, data.length = (lowBits c).toNat + 1 ∧ i = .lit0 (highBits c) data ∧ bs = data ++ rest := by
  rw [← reservedTag_eq_none_iff, ← decodeChunk_eq_ok, decodeFirst]
  cases reservedTag c <;> simp

theorem decodeMatch1_eq_ok : decodeMatch1 c bs = .ok (i, rest) ↔
    (highBits c = 7#3 ∧ ∃ e dl, i = .m1l (lowBits c) e dl ∧ bs = e :: dl :: rest) ∨
      (highBits c ≠ 7#3 ∧ ∃ dl, i = .m1s (highBits c) (lowBits c) dl ∧ bs = dl :: rest) := by
  unfold decodeMatch1
  constructor
  · intro h
    split_ifs at h with h7
    · split at h <;> cases h
      exact .inl ⟨h7, _, _, rfl, rfl⟩
    · split at h <;> cases h
      exact .inr ⟨h7, _, rfl, rfl⟩
  · rintro (⟨h7, e, dl, rfl, rfl⟩ | ⟨h7, dl, rfl, rfl⟩)
    · exact if_pos h7
    · exact if_neg h7

theorem decodeMatch2_short (h : highBits c ≠ 7#3) : decodeMatch2 c bs =
    decodeDistance2 (.m2ns (highBits c) (lowBits c)) (.m2fs (highBits c)) (lowBits c) 1 bs := if_neg h

theorem decodeMatch2_long (h : highBits c = 7#3) : decodeMatch2 c bs = .ok (i, rest) ↔
    ∃ k last tail, terminatorOk last = true ∧ bs = lengthBytes k last ++ tail ∧
      decodeDistance2 (.m2nl (lowBits c) k last) (.m2fl k last) (lowBits c) (k + 2) tail = .ok (i, rest) := by
  simp only [decodeMatch2, if_pos h, ← and_assoc, ← decodeLength_eq_ok]
  constructor
  · intro hd
    split at hd
    · cases hd
    · next k last tail hk => exact ⟨k, last, tail, hk, hd⟩
  · rintro ⟨k, last, tail, hk, hd⟩
    rw [hk]
    exact hd

end Decode

/-! ## Decoding and encoding are inverse -/

section Inverse

variable {level : Level} {c : Byte} {bs rest : List Byte} {i : Instr}

theorem decodeFirst_encodes (h : decodeFirst c bs = .ok (i, rest)) : Encodes ⟨true, level⟩ (c :: bs) i rest := by
  rcases decodeFirst_eq_ok.1 h with ⟨htag, rfl⟩ | ⟨htag, data, hlen, rfl, rfl⟩
  · obtain ⟨rfl | rfl, hwf⟩ := reservedTag_eq_some_iff.1 htag
    · exact ⟨hwf, rfl, by simp [encode]⟩
    · exact ⟨hwf, rfl, by simp [encode]⟩
  · obtain ⟨hchunk, hcount⟩ := chunk_of_countField hlen
    exact ⟨by simp [Instr.wellFormed, htag, hchunk], rfl, by simp [encode, hcount]⟩

theorem decodeLiteral_encodes (h0 : highBits c = 0#3)
    (h : decodeChunk .lit ((lowBits c).toNat + 1) bs = .ok (i, rest)) : Encodes ⟨false, level⟩ (c :: bs) i rest := by
  obtain ⟨data, hlen, rfl, rfl⟩ := decodeChunk_eq_ok.1 h
  obtain ⟨hchunk, hcount⟩ := chunk_of_countField hlen
  exact ⟨hchunk, rfl, by simp [encode, hcount, ← h0]⟩

theorem decodeMatch1_encodes (h0 : highBits c ≠ 0#3) (h : decodeMatch1 c bs = .ok (i, rest)) :
    Encodes ⟨false, .one⟩ (c :: bs) i rest := by
  rcases decodeMatch1_eq_ok.1 h with ⟨h7, e, dl, rfl, rfl⟩ | ⟨h7, dl, rfl, rfl⟩
  · exact ⟨rfl, rfl, by simp [encode, ← h7]⟩
  · exact ⟨shortCodeOk_iff_ne.2 ⟨h0, h7⟩, rfl, by simp [encode]⟩

theorem decodeMatch2_encodes (h0 : highBits c ≠ 0#3) (h : decodeMatch2 c bs = .ok (i, rest)) :
    Encodes ⟨false, .two⟩ (c :: bs) i rest := by
  by_cases h7 : highBits c = 7#3
  · obtain ⟨k, last, tail, hlast, rfl, hd⟩ := (decodeMatch2_long h7).1 h
    rcases decodeDistance2_eq_ok.1 hd with ⟨dl, hnear, rfl, rfl⟩ | ⟨fh, fl, h31, rfl, rfl⟩
    · exact ⟨by simp [Instr.wellFormed, hlast, hnear], rfl, by simp [encode, ← h7]⟩
    · exact ⟨hlast, rfl, by simp [encode, ← h7, ← h31]⟩
  · have hcode := shortCodeOk_iff_ne.2 ⟨h0, h7⟩
    rw [decodeMatch2_short h7] at h
    rcases decodeDistance2_eq_ok.1 h with ⟨dl, hnear, rfl, rfl⟩ | ⟨fh, fl, h31, rfl, rfl⟩
    · exact ⟨by simp [Instr.wellFormed, hcode, hnear], rfl, by simp [encode]⟩
    · exact ⟨hcode, rfl, by simp [encode, ← h31]⟩

/-- Whatever decodes is a token of the format, legal where it stands, and its bytes are the bytes read. -/
theorem decode_encodes {ctx : Context} {bytes : List Byte} (h : decode ctx bytes = .ok (i, rest)) :
    Encodes ctx bytes i rest := by
  obtain ⟨first, level⟩ := ctx
  cases bytes with
  | nil => cases h
  | cons c bs =>
    cases first with
    | true => exact decodeFirst_encodes h
    | false =>
      by_cases h0 : highBits c = 0#3
      · exact decodeLiteral_encodes h0 (decode_literal h0 ▸ h)
      · cases level with
        | one => exact decodeMatch1_encodes h0 (decode_match1 h0 ▸ h)
        | two => exact decodeMatch2_encodes h0 (decode_match2 h0 ▸ h)

/-- LIT0 and the reserved tags are the only ones legal under FIRST = 1 (30_encoding.md R72). -/
theorem decode_encode_first (hwf : i.wellFormed = true) (hlegal : legalIn ⟨true, level⟩ i = true) :
    decode ⟨true, level⟩ (encode i ++ rest) = .ok (i, rest) := by
  cases i with
  | lit0 tag data =>
    simp only [Instr.wellFormed, Bool.and_eq_true, decide_eq_true_eq] at hwf
    obtain ⟨htag, hchunk⟩ := hwf
    refine decodeFirst_eq_ok.2 (.inr ⟨by simpa using htag, data, ?_, by simp, rfl⟩)
    rw [lowBits_controlByte, countField_toNat hchunk]
  | tagRsv23 tag low => exact decodeFirst_eq_ok.2 (.inl ⟨reservedTag_eq_some_iff.2 ⟨by simp, hwf⟩, rfl⟩)
  | tagRsv47 tag low => exact decodeFirst_eq_ok.2 (.inl ⟨reservedTag_eq_some_iff.2 ⟨by simp, hwf⟩, rfl⟩)
  | _ => simp [legalIn] at hlegal

/-- A short Level2 match is read by its distance bytes. -/
theorem decode_shortMatch2 {lc : BitVec 3} {dh : BitVec 5} (h : shortCodeOk lc = true) :
    decode ⟨false, .two⟩ (controlByte lc dh :: bs) = decodeDistance2 (.m2ns lc dh) (.m2fs lc) dh 1 bs := by
  obtain ⟨h0, h7⟩ := shortCodeOk_iff_ne.1 h
  rw [decode_match2 (by simpa using h0), decodeMatch2_short (by simpa using h7), highBits_controlByte,
    lowBits_controlByte]

/-- A long Level2 match is read by its length bytes and then by its distance bytes. -/
theorem decode_longMatch2 {dh : BitVec 5} {last : Byte} {k : Nat} (h : terminatorOk last = true)
    (hd : decodeDistance2 (.m2nl dh k last) (.m2fl k last) dh (k + 2) bs = .ok (i, rest)) :
    decode ⟨false, .two⟩ (controlByte 7#3 dh :: (lengthBytes k last ++ bs)) = .ok (i, rest) := by
  rw [decode_match2 (by simp), decodeMatch2_long (by simp)]
  exact ⟨k, last, bs, h, rfl, by rwa [lowBits_controlByte]⟩

/-- After the first token a literal is legal in both levels, and a match in its own. -/
theorem decode_encode_later (hwf : i.wellFormed = true) (hlegal : legalIn ⟨false, level⟩ i = true) :
    decode ⟨false, level⟩ (encode i ++ rest) = .ok (i, rest) := by
  cases i with
  | lit data =>
    refine (decode_literal (by simp)).trans (decodeChunk_eq_ok.2 ⟨data, ?_, rfl, rfl⟩)
    rw [lowBits_controlByte, countField_toNat hwf]
  | m1s lc dh dl =>
    obtain rfl : level = .one := by simpa [legalIn] using hlegal
    obtain ⟨h0, h7⟩ := shortCodeOk_iff_ne.1 hwf
    exact (decode_match1 (by simpa using h0)).trans
      (decodeMatch1_eq_ok.2 (.inr ⟨by simpa using h7, dl, by simp, rfl⟩))
  | m1l dh e dl =>
    obtain rfl : level = .one := by simpa [legalIn] using hlegal
    exact (decode_match1 (by simp)).trans (decodeMatch1_eq_ok.2 (.inl ⟨by simp, e, dl, by simp, rfl⟩))
  | m2ns lc dh dl =>
    obtain rfl : level = .two := by simpa [legalIn] using hlegal
    obtain ⟨hcode, hnear⟩ := (Bool.and_eq_true _ _).mp hwf
    exact (decode_shortMatch2 hcode).trans (decodeDistance2_eq_ok.2 (.inl ⟨dl, hnear, rfl, rfl⟩))
  | m2nl dh k last dl =>
    obtain rfl : level = .two := by simpa [legalIn] using hlegal
    obtain ⟨hlast, hnear⟩ := (Bool.and_eq_true _ _).mp hwf
    simp only [encode, List.cons_append, List.append_assoc]
    exact decode_longMatch2 hlast (decodeDistance2_eq_ok.2 (.inl ⟨dl, hnear, rfl, rfl⟩))
  | m2fs lc fh fl =>
    obtain rfl : level = .two := by simpa [legalIn] using hlegal
    exact (decode_shortMatch2 hwf).trans (decodeDistance2_eq_ok.2 (.inr ⟨fh, fl, rfl, rfl, rfl⟩))
  | m2fl k last fh fl =>
    obtain rfl : level = .two := by simpa [legalIn] using hlegal
    simp only [encode, List.cons_append, List.append_assoc]
    exact decode_longMatch2 hwf (decodeDistance2_eq_ok.2 (.inr ⟨fh, fl, rfl, rfl, rfl⟩))
  | _ => simp [legalIn] at hlegal

/-- No bit of a token is dropped. -/
theorem decode_encode {ctx : Context} (hwf : i.wellFormed = true) (hlegal : legalIn ctx i = true) :
    decode ctx (encode i ++ rest) = .ok (i, rest) := by
  obtain ⟨_ | _, level⟩ := ctx
  · exact decode_encode_later hwf hlegal
  · exact decode_encode_first hwf hlegal

/-- The decoder answers exactly the well-formed, legal token whose bytes are read. -/
theorem decode_eq_ok_iff {ctx : Context} {bytes : List Byte} :
    decode ctx bytes = .ok (i, rest) ↔ Encodes ctx bytes i rest :=
  ⟨decode_encodes, fun ⟨hwf, hlegal, hbytes⟩ => hbytes ▸ decode_encode hwf hlegal⟩

/-- Every control byte begins a token that is legal after the first (30_encoding.md R85). -/
theorem exists_token_of_controlByte (level : Level) (c : Byte) :
    ∃ i bytes, i.wellFormed = true ∧ legalIn ⟨false, level⟩ i = true ∧ encode i = c :: bytes := by
  by_cases h0 : highBits c = 0#3
  · have hlen := List.length_replicate (n := (lowBits c).toNat + 1) (a := (0 : Byte))
    obtain ⟨hchunk, hcount⟩ := chunk_of_countField hlen
    exact ⟨.lit _, _, hchunk, rfl, by rw [encode, hcount, ← h0, controlByte_highBits_lowBits]⟩
  · have hnear : nearOk (lowBits c) 0 = true := nearOk_iff.2 fun h => absurd h.1 (by decide)
    by_cases h7 : highBits c = 7#3
    · cases level with
      | one => exact ⟨.m1l (lowBits c) 0 0, [0, 0], rfl, rfl, by simp [encode, ← h7]⟩
      | two => exact ⟨.m2nl (lowBits c) 0 0 0, [0, 0], hnear, rfl, by simp [encode, lengthBytes, ← h7]⟩
    · have hcode := shortCodeOk_iff_ne.2 ⟨h0, h7⟩
      cases level with
      | one => exact ⟨.m1s (highBits c) (lowBits c) 0, [0], hcode, rfl, by simp [encode]⟩
      | two =>
        have hwf := (Bool.and_eq_true _ _).mpr ⟨hcode, hnear⟩
        exact ⟨.m2ns (highBits c) (lowBits c) 0, [0], hwf, rfl, by simp [encode]⟩

end Inverse

end Sys2Proof

/-! ## The statements about the encoding -/

namespace Sys2Proof.Proofs

open Sys2Proof.Machine Sys2Proof.Safety

/-- Settles O1: FIRST or a later token, and then token by token. -/
theorem decodeOfEncodeIsTheToken : Obligations.DecodeOfEncodeIsTheToken :=
  fun _ _ _ hwf hlegal => decode_eq_ok_iff.2 ⟨hwf, hlegal, rfl⟩

/-- Settles O2: each part of the decoder says for which bytes it answers. -/
theorem decodedBytesAreTheTokensOwn : Obligations.DecodedBytesAreTheTokensOwn := by
  intro ctx bytes rest i h
  obtain ⟨hwf, hlegal, hbytes⟩ := decode_eq_ok_iff.1 h
  exact ⟨hwf, hlegal, hbytes⟩

/-- Settles O3: the bytes are those of a token that begins with the control byte, and it decodes to itself. -/
theorem everyControlByteBeginsSomeToken : Obligations.EveryControlByteBeginsSomeToken := by
  intro level c
  obtain ⟨i, bytes, hwf, hlegal, hbytes⟩ := exists_token_of_controlByte level c
  have hdec := decode_encode (rest := []) hwf hlegal
  rw [List.append_nil, hbytes] at hdec
  exact ⟨bytes, i, hdec⟩

/-- Settles O4: the decoder is run on each of the ten words. -/
theorem wordsOfTheSpecDecode : Obligations.WordsOfTheSpecDecode := by
  unfold Obligations.WordsOfTheSpecDecode
  decide

end Sys2Proof.Proofs

/-! ## The operands of a match token: their ranges, and their fields (30_encoding.md R81, R82, R84) -/

namespace Sys2Proof.Machine

open Sys2Proof.Safety

theorem shortLen_bounds {lc : BitVec 3} (h : shortCodeOk lc = true) :
    4 ≤ rawLen (shortLen lc) ∧ rawLen (shortLen lc) ≤ 9 := by
  obtain ⟨h1, h6⟩ := shortCodeOk_iff.1 h
  unfold rawLen shortLen Config.lenBias
  omega

theorem rawLen_longLen (conts : Nat) (last : Byte) :
    rawLen (longLen conts last) = 10 + 255 * conts + last.toNat := by
  unfold rawLen longLen Config.lenBias
  omega

/-- The far escape cuts the last one off the near distances (30_encoding.md R82). -/
theorem nearDist_lt {dh : BitVec 5} {dl : Byte} (h : nearOk dh dl = true) : nearDist dh dl < 8191 := by
  have hfields := nearOk_iff.1 h
  rw [Config.farMarker, ← BitVec.toNat_inj, ← BitVec.toNat_inj, BitVec.toNat_ofNat, BitVec.toNat_ofNat] at hfields
  unfold nearDist
  omega

theorem farDist_eq (fh fl : Byte) : farDist fh fl + 1 = 8192 + (fh.toNat <<< 8 ||| fl.toNat) := by
  rw [shiftLeft_or_byte]
  unfold farDist farField Config.l2NearBound
  omega

theorem farDist_bounds (fh fl : Byte) : 8191 ≤ farDist fh fl ∧ farDist fh fl ≤ 73726 := by
  unfold farDist farField Config.l2NearBound
  omega

/-! The fields of an operand hold it -/

theorem shortLen_ofNat {len : Nat} (h : len < 7) : shortLen (BitVec.ofNat 3 len) = len := by
  rw [shortLen, BitVec.toNat_ofNat]
  omega

theorem extendedLen_ofNat {len : Nat} (h7 : 7 ≤ len) (h : len ≤ 262) :
    extendedLen (BitVec.ofNat 8 (len - 7)) = len := by
  rw [extendedLen, BitVec.toNat_ofNat]
  omega

theorem longLen_ofNat {len : Nat} (h7 : 7 ≤ len) :
    longLen ((len - 7) / 255) (BitVec.ofNat 8 ((len - 7) % 255)) = len := by
  rw [longLen, BitVec.toNat_ofNat]
  omega

theorem nearDist_ofNat {dist : Nat} (h : dist < 8192) :
    nearDist (BitVec.ofNat 5 (dist / 256)) (BitVec.ofNat 8 (dist % 256)) = dist := by
  rw [nearDist, BitVec.toNat_ofNat, BitVec.toNat_ofNat]
  omega

theorem farField_ofNat {f : Nat} (h : f < 65536) :
    farField (BitVec.ofNat 8 (f / 256)) (BitVec.ofNat 8 (f % 256)) = f := by
  rw [farField, BitVec.toNat_ofNat, BitVec.toNat_ofNat]
  omega

theorem shortCodeOk_ofNat {len : Nat} (h1 : 1 ≤ len) (h : len < 7) : shortCodeOk (BitVec.ofNat 3 len) = true := by
  rw [shortCodeOk_iff, BitVec.toNat_ofNat]
  omega

theorem terminatorOk_ofNat (n : Nat) : terminatorOk (BitVec.ofNat 8 (n % 255)) = true := by
  rw [terminatorOk_iff, Config.cont, ne_eq, ← BitVec.toNat_inj, BitVec.toNat_ofNat, BitVec.toNat_ofNat]
  omega

theorem nearOk_ofNat {dist : Nat} (h : dist < 8191) :
    nearOk (BitVec.ofNat 5 (dist / 256)) (BitVec.ofNat 8 (dist % 256)) = true := by
  rw [nearOk_iff, Config.farMarker, ← BitVec.toNat_inj, ← BitVec.toNat_inj, BitVec.toNat_ofNat, BitVec.toNat_ofNat,
    BitVec.toNat_ofNat, BitVec.toNat_ofNat]
  omega

/-- `i` is a match token of `level` that carries the distance `D` and the raw length `L`. -/
structure Carries (level : Level) (i : Instr) (D L : Nat) : Prop where
  wellFormed : i.wellFormed = true
  legal : legalIn ⟨false, level⟩ i = true
  operands : operandsOf i = some (D, L)

section Carries

variable {len dist f : Nat}

theorem m1s_carries (h1 : 1 ≤ len) (h7 : len < 7) (hdist : dist < 8192) :
    Carries .one (.m1s (BitVec.ofNat 3 len) (BitVec.ofNat 5 (dist / 256)) (BitVec.ofNat 8 (dist % 256)))
      (dist + 1) (len + 3) :=
  ⟨shortCodeOk_ofNat h1 h7, rfl, by rw [operandsOf, nearDist_ofNat hdist, shortLen_ofNat h7]; rfl⟩

theorem m1l_carries (h7 : 7 ≤ len) (h262 : len ≤ 262) (hdist : dist < 8192) :
    Carries .one (.m1l (BitVec.ofNat 5 (dist / 256)) (BitVec.ofNat 8 (len - 7)) (BitVec.ofNat 8 (dist % 256)))
      (dist + 1) (len + 3) :=
  ⟨rfl, rfl, by rw [operandsOf, nearDist_ofNat hdist, extendedLen_ofNat h7 h262]; rfl⟩

theorem m2ns_carries (h1 : 1 ≤ len) (h7 : len < 7) (hdist : dist < 8191) :
    Carries .two (.m2ns (BitVec.ofNat 3 len) (BitVec.ofNat 5 (dist / 256)) (BitVec.ofNat 8 (dist % 256)))
      (dist + 1) (len + 3) :=
  ⟨(Bool.and_eq_true _ _).mpr ⟨shortCodeOk_ofNat h1 h7, nearOk_ofNat hdist⟩, rfl, by
    rw [operandsOf, nearDist_ofNat (by omega), shortLen_ofNat h7]; rfl⟩

theorem m2nl_carries (h7 : 7 ≤ len) (hdist : dist < 8191) :
    Carries .two (.m2nl (BitVec.ofNat 5 (dist / 256)) ((len - 7) / 255) (BitVec.ofNat 8 ((len - 7) % 255))
      (BitVec.ofNat 8 (dist % 256))) (dist + 1) (len + 3) :=
  ⟨(Bool.and_eq_true _ _).mpr ⟨terminatorOk_ofNat _, nearOk_ofNat hdist⟩, rfl, by
    rw [operandsOf, nearDist_ofNat (by omega), longLen_ofNat h7]; rfl⟩

theorem m2fs_carries (h1 : 1 ≤ len) (h7 : len < 7) (hf : f < 65536) :
    Carries .two (.m2fs (BitVec.ofNat 3 len) (BitVec.ofNat 8 (f / 256)) (BitVec.ofNat 8 (f % 256)))
      (8191 + f + 1) (len + 3) :=
  ⟨shortCodeOk_ofNat h1 h7, rfl, by rw [operandsOf, farDist, farField_ofNat hf, shortLen_ofNat h7]; rfl⟩

theorem m2fl_carries (h7 : 7 ≤ len) (hf : f < 65536) :
    Carries .two (.m2fl ((len - 7) / 255) (BitVec.ofNat 8 ((len - 7) % 255)) (BitVec.ofNat 8 (f / 256))
      (BitVec.ofNat 8 (f % 256))) (8191 + f + 1) (len + 3) :=
  ⟨terminatorOk_ofNat _, rfl, by rw [operandsOf, farDist, farField_ofNat hf, longLen_ofNat h7]; rfl⟩

end Carries

/-- An assembler that answers `token` exactly where `range` holds, and there it carries `D` and `L`. -/
theorem assembles_exactly {range : Prop} [Decidable range] {level : Level} {a : Option Instr} {token : Instr}
    {D L : Nat} (ha : a = if range then some token else none) (hcarries : range → Carries level token D L) :
    (∀ i, a = some i → i.wellFormed = true ∧ legalIn ⟨false, level⟩ i = true ∧ operandsOf i = some (D, L)) ∧
      (a.isSome ↔ range) := by
  by_cases h : range
  · rw [ha, if_pos h]
    obtain ⟨hwf, hlegal, hops⟩ := hcarries h
    refine ⟨fun i hi => ?_, by simp [h]⟩
    obtain rfl := Option.some.inj hi
    exact ⟨hwf, hlegal, hops⟩
  · rw [ha, if_neg h]
    exact ⟨nofun, by simp [h]⟩

/-! ## The tokens of M1 L, D (30_encoding.md R89, 42_level1.md R151 to R154) -/

/-- The token that `M1 L, D` assembles to on its range. -/
def m1Token (D L : Nat) : Instr :=
  if L ≤ 9 then .m1s (BitVec.ofNat 3 (L - 3)) (BitVec.ofNat 5 ((D - 1) / 256)) (BitVec.ofNat 8 ((D - 1) % 256))
  else .m1l (BitVec.ofNat 5 ((D - 1) / 256)) (BitVec.ofNat 8 (L - 10)) (BitVec.ofNat 8 ((D - 1) % 256))

theorem assembleM1_eq (L D : Nat) :
    assembleM1 L D = if 4 ≤ L ∧ L ≤ 265 ∧ 1 ≤ D ∧ D ≤ 8192 then some (m1Token D L) else none := by
  unfold assembleM1 m1Token
  rw [← apply_ite some]
  rfl

theorem m1Token_carries {D L : Nat} (h4 : 4 ≤ L) (h265 : L ≤ 265) (h1 : 1 ≤ D) (hD : D ≤ 8192) :
    Carries .one (m1Token D L) D L := by
  obtain ⟨dist, rfl⟩ := Nat.exists_eq_add_of_le' h1
  obtain ⟨len, rfl⟩ : ∃ len, L = len + 3 := ⟨L - 3, by omega⟩
  unfold m1Token
  split
  · exact m1s_carries (len := len) (by omega) (by omega) (by omega)
  · exact m1l_carries (len := len) (by omega) (by omega) (by omega)

theorem emitM1One_short {dist L : Nat} (h : L ≤ 9) (hdist : dist < 8192) : emitM1One dist L =
    [controlByte (BitVec.ofNat 3 (L - 3)) (BitVec.ofNat 5 (dist / 256)), BitVec.ofNat 8 (dist % 256)] := by
  have hlen : ¬ 7 ≤ L - Config.lenBias := show ¬ 7 ≤ L - 3 by omega
  rw [controlByte_ofNat _ (by omega)]
  simp only [emitM1One, if_neg hlen, min_eq_left (Nat.le_of_not_le hlen)]
  rfl

theorem emitM1One_long {dist L : Nat} (h : ¬ L ≤ 9) (hdist : dist < 8192) : emitM1One dist L =
    [controlByte 7#3 (BitVec.ofNat 5 (dist / 256)), BitVec.ofNat 8 (L - 10), BitVec.ofNat 8 (dist % 256)] := by
  have hlen : 7 ≤ L - Config.lenBias := show 7 ≤ L - 3 by omega
  rw [controlByte_ofNat 7 (by omega)]
  simp only [emitM1One, if_pos hlen, min_eq_right hlen, Nat.sub_sub]
  rfl

/-- EMIT_M1_ONE emits the token (42_level1.md R152). -/
theorem encode_m1Token {D : Nat} (hD : D ≤ 8192) (L : Nat) : encode (m1Token D L) = emitM1One (D - 1) L := by
  unfold m1Token
  split
  · next h => exact (emitM1One_short h (by omega)).symm
  · next h => exact (emitM1One_long h (by omega)).symm

/-- The raw lengths of the tokens EMIT_M1 splits `L` into (42_level1.md R153, R154). -/
def splitLengths (L : Nat) : List Nat :=
  List.replicate (fullTokens L) 265 ++ (if 4 ≤ splitRest L then [splitRest L] else [])

theorem splitRest_bounds {L : Nat} (h4 : 4 ≤ L) : 1 ≤ splitRest L ∧ splitRest L ≤ 265 := by
  unfold splitRest fullTokens Config.l1MaxToken
  omega

theorem splitLengths_bounds {L n : Nat} (h4 : 4 ≤ L) (hn : n ∈ splitLengths L) : 4 ≤ n ∧ n ≤ 265 := by
  have hrest := splitRest_bounds h4
  rcases List.mem_append.1 hn with hfull | hlast
  · obtain rfl := List.eq_of_mem_replicate hfull
    omega
  · split at hlast
    · obtain rfl := List.mem_singleton.1 hlast
      omega
    · simp at hlast

theorem splitLengths_sum (L : Nat) : (splitLengths L).sum = coveredM1 L := by
  have hsplit := split_add L
  unfold splitLengths coveredM1 Config.minMatch Config.l1MaxToken
  rw [List.sum_append, List.sum_replicate, smul_eq_mul]
  split
  · rw [List.sum_singleton]; omega
  · rw [List.sum_nil]; omega

/-- The split leaves less than a match uncovered (42_level1.md R154). -/
theorem lt_coveredM1_add (L : Nat) : L < coveredM1 L + 4 := by
  have hsplit := split_add L
  unfold coveredM1 Config.minMatch Config.l1MaxToken
  split <;> omega

theorem assembleM1Star_eq {L D : Nat} (h4 : 4 ≤ L) (h1 : 1 ≤ D) (hD : D ≤ 8192) :
    assembleM1Star L D = (splitLengths L).map (m1Token D) := by
  have hrest := splitRest_bounds h4
  have hfull : assembleM1 Config.l1MaxToken D = some (m1Token D 265) :=
    (assembleM1_eq _ _).trans (if_pos ⟨by decide, by decide, h1, hD⟩)
  have hlast : assembleM1 (splitRest L) D = if 4 ≤ splitRest L then some (m1Token D (splitRest L)) else none := by
    rw [assembleM1_eq]
    exact if_congr (by omega) rfl rfl
  show (List.replicate (fullTokens L) (assembleM1 Config.l1MaxToken D) ++ [assembleM1 (splitRest L) D]).filterMap id = _
  rw [hfull, hlast, splitLengths, List.filterMap_append, List.map_append, List.map_replicate,
    List.filterMap_replicate_of_some (f := id) rfl]
  split <;> rfl

/-- A full token is EMIT_M1_ONE of 265 (42_level1.md R152, R153). -/
theorem emitM1One_full (dist : Nat) :
    emitM1One dist 265 = [BitVec.ofNat 8 (0xE0 + dist / 256), 255#8, BitVec.ofNat 8 (dist % 256)] := rfl

theorem emitM1_eq (D L : Nat) : emitM1 D L = ((splitLengths L).map (emitM1One (D - 1))).flatten := by
  unfold emitM1 splitLengths Config.minMatch Config.distBias
  simp only [← emitM1One_full]
  rw [List.map_append, List.map_replicate, List.flatten_append]
  split <;> simp

/-- EMIT_M1 emits the tokens of `M1* L, D` (42_level1.md R151). -/
theorem emitM1_eq_encode {D L : Nat} (h1 : 1 ≤ D) (hD : D ≤ 8192) (h4 : 4 ≤ L) :
    emitM1 D L = ((assembleM1Star L D).map encode).flatten := by
  have hbytes : encode ∘ m1Token D = emitM1One (D - 1) := funext (encode_m1Token hD)
  rw [emitM1_eq, assembleM1Star_eq h4 h1 hD, List.map_map, hbytes]

/-! ## The token of M2 L, D (30_encoding.md R89, 43_level2.md R173, R174) -/

/-- EMIT_M2's length field of a short match is the control byte (43_level2.md R173). -/
theorem lengthPart_short {len low : Nat} (h : len < 7) (hlow : low < 32) :
    lengthPart len low = [controlByte (BitVec.ofNat 3 len) (BitVec.ofNat 5 low)] := by
  rw [lengthPart, if_pos h, controlByte_ofNat _ hlow]

/-- EMIT_M2's length field of a long match is the control byte and the length bytes (43_level2.md R173, R174). -/
theorem lengthPart_long {len low : Nat} (h : ¬ len < 7) (hlow : low < 32) : lengthPart len low =
    controlByte 7#3 (BitVec.ofNat 5 low) :: lengthBytes ((len - 7) / 255) (BitVec.ofNat 8 ((len - 7) % 255)) := by
  rw [lengthPart, if_neg h, ← controlByte_ofNat 7 hlow]
  rfl

/-- The near Level2 match of biased length `len` and biased distance `dist`. -/
def m2Near (len dist : Nat) : Instr :=
  if len < 7 then .m2ns (BitVec.ofNat 3 len) (BitVec.ofNat 5 (dist / 256)) (BitVec.ofNat 8 (dist % 256))
  else .m2nl (BitVec.ofNat 5 (dist / 256)) ((len - 7) / 255) (BitVec.ofNat 8 ((len - 7) % 255))
    (BitVec.ofNat 8 (dist % 256))

/-- The far Level2 match of biased length `len` and far field `f`. -/
def m2Far (len f : Nat) : Instr :=
  if len < 7 then .m2fs (BitVec.ofNat 3 len) (BitVec.ofNat 8 (f / 256)) (BitVec.ofNat 8 (f % 256))
  else .m2fl ((len - 7) / 255) (BitVec.ofNat 8 ((len - 7) % 255)) (BitVec.ofNat 8 (f / 256)) (BitVec.ofNat 8 (f % 256))

/-- The token that `M2 L, D` assembles to on its range. -/
def m2Token (D L : Nat) : Instr :=
  if D - 1 < 8191 then m2Near (L - 3) (D - 1) else m2Far (L - 3) (D - 1 - 8191)

theorem assembleM2_eq (L D : Nat) :
    assembleM2 L D = if 4 ≤ L ∧ 1 ≤ D ∧ D ≤ 73727 then some (m2Token D L) else none := by
  unfold assembleM2 m2Token m2Near m2Far
  rw [apply_ite some, apply_ite some, apply_ite some]
  rfl

theorem m2Near_carries {len dist : Nat} (h1 : 1 ≤ len) (hdist : dist < 8191) :
    Carries .two (m2Near len dist) (dist + 1) (len + 3) := by
  unfold m2Near
  split
  · next h7 => exact m2ns_carries h1 h7 hdist
  · next h7 => exact m2nl_carries (Nat.le_of_not_lt h7) hdist

theorem m2Far_carries {len f : Nat} (h1 : 1 ≤ len) (hf : f < 65536) :
    Carries .two (m2Far len f) (8191 + f + 1) (len + 3) := by
  unfold m2Far
  split
  · next h7 => exact m2fs_carries h1 h7 hf
  · next h7 => exact m2fl_carries (Nat.le_of_not_lt h7) hf

theorem m2Token_carries {D L : Nat} (h4 : 4 ≤ L) (h1 : 1 ≤ D) (hD : D ≤ 73727) :
    Carries .two (m2Token D L) D L := by
  obtain ⟨dist, rfl⟩ := Nat.exists_eq_add_of_le' h1
  obtain ⟨len, rfl⟩ : ∃ len, L = len + 3 := ⟨L - 3, by omega⟩
  rw [m2Token, Nat.add_sub_cancel, Nat.add_sub_cancel]
  split
  · next hnear => exact m2Near_carries (by omega) hnear
  · next hfar =>
    obtain ⟨f, rfl⟩ := Nat.exists_eq_add_of_le (Nat.le_of_not_lt hfar)
    rw [Nat.add_sub_cancel_left]
    exact m2Far_carries (by omega) (by omega)

theorem encode_m2Near {dist : Nat} (hdist : dist < 8191) (len : Nat) :
    encode (m2Near len dist) = lengthPart len (dist / 256) ++ [BitVec.ofNat 8 (dist % 256)] := by
  unfold m2Near
  split
  · next h7 => rw [lengthPart_short h7 (by omega)]; rfl
  · next h7 => rw [lengthPart_long h7 (by omega)]; rfl

theorem encode_m2Far (len f : Nat) : encode (m2Far len f) =
    lengthPart len 31 ++ [Config.farMarker, BitVec.ofNat 8 (f / 256), BitVec.ofNat 8 (f % 256)] := by
  unfold m2Far
  split
  · next h7 => rw [lengthPart_short h7 (by decide)]; rfl
  · next h7 => rw [lengthPart_long h7 (by decide)]; rfl

/-- EMIT_M2 emits the token (43_level2.md R173). -/
theorem encode_m2Token (D L : Nat) : encode (m2Token D L) = emitM2 D L := by
  unfold m2Token
  split
  · next hnear => exact (encode_m2Near hnear _).trans (if_pos hnear).symm
  · next hfar => exact (encode_m2Far _ _).trans (if_neg hfar).symm

end Sys2Proof.Machine

/-! ## The statements about the operands of a match and about what the encoder emits -/

namespace Sys2Proof.Proofs

open Sys2Proof.Machine Sys2Proof.Safety

/-- Settles O6: the short code, the terminator and the missing far escape bound the operands of each kind. -/
theorem level2TokenRanges : Obligations.Level2TokenRanges := by
  intro i distance L hwf hlegal hops
  cases i with
  | m2ns lc dh dl =>
    obtain ⟨hcode, hnear⟩ := (Bool.and_eq_true _ _).mp hwf
    obtain ⟨h4, h9⟩ := shortLen_bounds hcode
    have hdist := nearDist_lt hnear
    cases hops
    exact ⟨h4, by omega, by omega, h9, by omega⟩
  | m2nl dh conts last dl =>
    have hdist := nearDist_lt ((Bool.and_eq_true _ _).mp hwf).2
    have hlen := rawLen_longLen conts last
    cases hops
    exact ⟨by omega, by omega, by omega, hlen, by omega⟩
  | m2fs lc fh fl =>
    obtain ⟨h4, h9⟩ := shortLen_bounds hwf
    have hdist := farDist_bounds fh fl
    cases hops
    exact ⟨h4, by omega, by omega, h9, farDist_eq fh fl⟩
  | m2fl conts last fh fl =>
    have hdist := farDist_bounds fh fl
    have hlen := rawLen_longLen conts last
    cases hops
    exact ⟨by omega, by omega, by omega, hlen, farDist_eq fh fl⟩
  | m1s => simp [legalIn] at hlegal
  | m1l => simp [legalIn] at hlegal
  | _ => cases hops

/-- Settles O7: on its range `M1` or `M2` is the token whose fields hold the operands. -/
theorem assembledMatchesCarryTheirOperands : Obligations.AssembledMatchesCarryTheirOperands := by
  intro L D
  obtain ⟨hone, hrange1⟩ := assembles_exactly (assembleM1_eq L D) fun ⟨h4, h265, h1, hD⟩ =>
    m1Token_carries h4 h265 h1 hD
  obtain ⟨htwo, hrange2⟩ := assembles_exactly (assembleM2_eq L D) fun ⟨h4, h1, hD⟩ => m2Token_carries h4 h1 hD
  exact ⟨hone, hrange1, htwo, hrange2⟩

/-- Settles O38: both sides are cut at the same lengths, each of which is a token's. -/
theorem emitM1IsTheSplitToken : Obligations.EmitM1IsTheSplitToken := by
  intro distance L h1 hdist h4
  have hcarries : ∀ n ∈ splitLengths L, Carries .one (m1Token distance n) distance n := fun n hn =>
    m1Token_carries (splitLengths_bounds h4 hn).1 (splitLengths_bounds h4 hn).2 h1 (by omega)
  obtain ⟨hrest1, hrest265⟩ := splitRest_bounds h4
  obtain ⟨hcov4, hcovL⟩ := coveredM1_bounds h4
  have htokens := assembleM1Star_eq h4 h1 (show distance ≤ 8192 by omega)
  refine ⟨emitM1_eq_encode h1 (by omega) h4, ?_, hrest1, hrest265, ?_, splitLengths_sum L, hcov4, hcovL, ?_⟩
  · rw [htokens, List.forall_mem_map]
    exact fun n hn => ⟨(hcarries n hn).wellFormed, (hcarries n hn).legal⟩
  · rw [htokens, List.map_map]
    exact List.map_congr_left fun n hn => (hcarries n hn).operands
  · exact lt_coveredM1_add L

/-- Settles O39: EMIT_M2 emits the token that `M2 L, D` assembles to. -/
theorem emitM2IsOneToken : Obligations.EmitM2IsOneToken := by
  intro distance L h1 hdist h4
  have hasm : assembleM2 L distance = some (m2Token distance L) :=
    (assembleM2_eq L distance).trans (if_pos ⟨h4, h1, by omega⟩)
  exact ⟨m2Token distance L, hasm, (encode_m2Token distance L).symm⟩

end Sys2Proof.Proofs

/-! ## The match finder: what it accepts and what it reports (40_match_finder.md R100 to R110, 43_level2.md R171) -/

namespace Sys2Proof.Machine

/-- The first `n` bytes of IN at `a` and at `b` agree. -/
def Agrees (s : State) (a b n : Nat) : Prop := ∀ i < n, readIn s (a + i) = readIn s (b + i)

section Acceptance

variable {s : State} {p cand distance L : Nat}

theorem agree_iff_agrees {a b n : Nat} : agree s a b 0 n = true ↔ Agrees s a b n := by
  simp [agree_iff, Agrees]

/-- The far test reads two bytes more than the near one (40_match_finder.md R106). -/
theorem agree_two_more_iff {a b : Nat} :
    (agree s a b 0 3 = true ∧ agree s a b 3 2 = true) ↔ Agrees s a b 5 := by
  simp only [agree_iff, Agrees]
  constructor
  · rintro ⟨hfirst, hlast⟩ i hi
    by_cases h3 : i < 3
    · exact hfirst i (Nat.zero_le i) (by omega)
    · exact hlast i (by omega) (by omega)
  · intro h
    exact ⟨fun i _ hi => h i (by omega), fun i _ hi => h i (by omega)⟩

/-- What EXTEND answers (40_match_finder.md R107). -/
theorem extend_spec (s : State) (r p k : Nat) :
    k ≤ extend s r p k ∧
      (∀ i, k ≤ i → i < extend s r p k → p + i < s.inLen ∧ readIn s (r + i) = readIn s (p + i)) ∧
      ¬ (p + extend s r p k < s.inLen ∧ readIn s (r + extend s r p k) = readIn s (p + extend s r p k)) := by
  obtain ⟨hge, hagree, hstop⟩ := extendBy_spec s r p (s.inLen - p) k
  exact ⟨hge, hagree, hstop (by omega)⟩

theorem Agrees.extend {r k : Nat} (h : Agrees s r p k) : Agrees s r p (extend s r p k) := by
  intro i hi
  by_cases hk : i < k
  · exact h i hk
  · exact ((extend_spec s r p k).2.1 i (by omega) hi).2

/-- A tested length is reported where the test holds and MIN_MATCH is reached (40_match_finder.md R108). -/
theorem ite_longEnough_eq_matched {c : Prop} [Decidable c] {d n : Nat} :
    (if c then longEnough d n else .noMatch) = .matched distance L ↔ distance = d ∧ c ∧ L = n ∧ 4 ≤ L := by
  split
  · next hc =>
    rw [longEnough_eq_matched]
    constructor
    · rintro ⟨h4, rfl, rfl⟩
      exact ⟨rfl, hc, rfl, h4⟩
    · rintro ⟨rfl, _, rfl, h4⟩
      exact ⟨h4, rfl, rfl⟩
  · next hc => exact ⟨nofun, fun h => absurd h.2.1 hc⟩

/-- Only a candidate before the position, and not position 0, is accepted (40_match_finder.md R104, R105). -/
theorem judge_outside (h : cand = 0 ∨ p ≤ cand) : judge s p cand = .noMatch := if_pos h

theorem candidate_of_judge (h : judge s p cand = .matched distance L) : 1 ≤ cand ∧ cand < p := by
  by_cases hc : cand = 0 ∨ p ≤ cand
  · rw [judge_outside hc] at h
    cases h
  · omega

/-- The Level1 test (40_match_finder.md R105). -/
theorem judge_one_iff (hl : s.level = .one) (h1 : 1 ≤ cand) (hp : cand < p) :
    judge s p cand = .matched distance L ↔
      distance = p - cand ∧ distance ≤ 8191 ∧ Agrees s cand p 3 ∧ L = extend s cand p 3 ∧ 4 ≤ L := by
  have hjudge : judge s p cand = if p - cand < 8192 ∧ agree s cand p 0 3 = true then
      longEnough (p - cand) (extend s cand p 3) else .noMatch := by
    rw [judge, if_neg (by omega), hl]
    rfl
  rw [hjudge, ite_longEnough_eq_matched, agree_iff_agrees, and_assoc]
  refine and_congr_right fun hd => and_congr_left fun _ => ?_
  omega

/-- The Level2 test of a candidate within the near distances (40_match_finder.md R106). -/
theorem judge_near_iff (hl : s.level = .two) (h1 : 1 ≤ cand) (hp : cand < p) (hnear : p - cand - 1 < 8191) :
    judge s p cand = .matched distance L ↔
      distance = p - cand ∧ Agrees s cand p 3 ∧ L = extend s cand p 3 ∧ 4 ≤ L := by
  have hjudge : judge s p cand = if p - cand < 73725 ∧ agree s cand p 0 3 = true then
      longEnough (p - cand) (extend s cand p 3) else .noMatch := by
    rw [judge, if_neg (by omega), hl]
    exact if_congr Iff.rfl (if_pos hnear) rfl
  rw [hjudge, ite_longEnough_eq_matched, agree_iff_agrees, and_iff_right (show p - cand < 73725 by omega)]

/-- The Level2 test of a candidate beyond the near distances (40_match_finder.md R106). -/
theorem judge_far_iff (hl : s.level = .two) (h1 : 1 ≤ cand) (hp : cand < p) (hfar : ¬ p - cand - 1 < 8191) :
    judge s p cand = .matched distance L ↔
      distance = p - cand ∧ distance < 73725 ∧ p + 5 ≤ s.inLen ∧ Agrees s cand p 5 ∧ L = extend s cand p 5 ∧ 4 ≤ L := by
  have hjudge : judge s p cand =
      if (p - cand < 73725 ∧ agree s cand p 0 3 = true) ∧ p + 5 ≤ s.inLen ∧ agree s cand p 3 2 = true then
        longEnough (p - cand) (extend s cand p 5) else .noMatch := by
    rw [judge, if_neg (by omega), hl, ite_and]
    exact if_congr Iff.rfl (if_neg hfar) rfl
  rw [hjudge, ite_longEnough_eq_matched, ← agree_two_more_iff]
  constructor
  · rintro ⟨rfl, ⟨⟨hlimit, hfirst⟩, hin, hlast⟩, hL, h4⟩
    exact ⟨rfl, hlimit, hin, ⟨hfirst, hlast⟩, hL, h4⟩
  · rintro ⟨rfl, hlimit, hin, ⟨hfirst, hlast⟩, hL, h4⟩
    exact ⟨rfl, ⟨⟨hlimit, hfirst⟩, hin, hlast⟩, hL, h4⟩

/-- RUN's test: the three bytes at `p` repeat the byte before it (43_level2.md R171). -/
theorem runShortcut_eq_matched_iff : runShortcut s p = .matched distance L ↔
    distance = 1 ∧ 1 ≤ p ∧ (∀ i < 3, readIn s (p + i) = readIn s (p - 1)) ∧ L = extend s (p - 1) p 3 ∧ 4 ≤ L := by
  have hbytes : (readIn s p = readIn s (p - 1) ∧ readIn s (p + 1) = readIn s (p - 1)
      ∧ readIn s (p + 2) = readIn s (p - 1)) ↔ ∀ i < 3, readIn s (p + i) = readIn s (p - 1) := by
    constructor
    · rintro ⟨h0, h1, h2⟩ i hi
      interval_cases i
      exacts [h0, h1, h2]
    · intro h
      exact ⟨h 0 (by decide), h 1 (by decide), h 2 (by decide)⟩
  rw [runShortcut, ite_longEnough_eq_matched, hbytes, and_assoc]

/-- The three bytes of a run agree with the three one byte before them. -/
theorem agrees_of_run (hp : 1 ≤ p) (h : ∀ i < 3, readIn s (p + i) = readIn s (p - 1)) : Agrees s (p - 1) p 3 := by
  intro i hi
  rw [h i hi]
  cases i with
  | zero => rfl
  | succ j => rw [← h j (by omega), show p - 1 + (j + 1) = p + j by omega]

/-! What is reported is a match that the tokens of the level can carry -/

/-- A match at `p` that is one and that its level's tokens can hold (40_match_finder.md R105, R106, R110). -/
structure Reported (s : State) (p distance L : Nat) : Prop where
  distance_pos : 1 ≤ distance
  distance_le : distance ≤ p
  agrees : Agrees s (p - distance) p L
  one : s.level = .one → distance ≤ 8191
  two : s.level = .two → distance < 73725 ∧ (8192 ≤ distance → 5 ≤ L)

theorem judge_reported (h : judge s p cand = .matched distance L) : Reported s p distance L := by
  obtain ⟨h1, hp⟩ := candidate_of_judge h
  have hback : p - (p - cand) = cand := by omega
  cases hl : s.level with
  | one =>
    obtain ⟨rfl, hlimit, hagree, rfl, _⟩ := (judge_one_iff hl h1 hp).1 h
    exact ⟨by omega, by omega, hback.symm ▸ hagree.extend, fun _ => hlimit, by simp [hl]⟩
  | two =>
    by_cases hnear : p - cand - 1 < 8191
    · obtain ⟨rfl, hagree, rfl, _⟩ := (judge_near_iff hl h1 hp hnear).1 h
      exact ⟨by omega, by omega, hback.symm ▸ hagree.extend, by simp [hl], fun _ => by omega⟩
    · obtain ⟨rfl, hlimit, _, hagree, rfl, _⟩ := (judge_far_iff hl h1 hp hnear).1 h
      exact ⟨by omega, by omega, hback.symm ▸ hagree.extend, by simp [hl],
        fun _ => ⟨hlimit, fun _ => (extend_spec s cand p 5).1⟩⟩

theorem runShortcut_reported (h : runShortcut s p = .matched distance L) : Reported s p distance L := by
  obtain ⟨rfl, hp, hrun, rfl, _⟩ := runShortcut_eq_matched_iff.1 h
  exact ⟨Nat.le_refl 1, hp, (agrees_of_run hp hrun).extend, fun _ => by omega, fun _ => by omega⟩

/-- FIND reports the answer of RUN or of the test, and both report matches. -/
theorem find_reported (h : (find s p).1 = .matched distance L) : Reported s p distance L := by
  rw [find_result] at h
  split at h
  · exact runShortcut_reported h
  · exact judge_reported h

end Acceptance

/-- HASH_default as a number: the bit operations of R101 on the bytes. -/
theorem hashDefault_eq (b0 b1 b2 : Byte) : hashDefault b0 b1 b2 =
    ((b0.toNat ||| b1.toNat <<< 8) ^^^ (b1.toNat ||| b2.toNat <<< 8) ^^^ (b0.toNat ||| b1.toNat <<< 8) >>> 3)
      &&& 0x1FFF := by
  have hpair (lo hi : Byte) : (hi ++ lo).toNat = lo.toNat ||| hi.toNat <<< 8 := by
    rw [BitVec.toNat_append, Nat.lor_comm]
  simp only [hashDefault, BitVec.toNat_and, BitVec.toNat_xor, BitVec.toNat_ushiftRight, hpair]
  rfl

end Sys2Proof.Machine

/-! ## The steps of COMPRESS after its start (40_match_finder.md R112, R114, R115) -/

namespace Sys2Proof.Machine

open Sys2Proof.Safety

theorem withinOut_next {s : State} (h : s.op ≤ s.outCap) : withinOut s = .next s := if_neg (Nat.not_lt.2 h)

/-- Emitted bytes stand in OUT from the old OP on (00_scope.md R12). -/
theorem writesChunk_emitBytes (data : List Byte) (s : State) : WritesChunk s (emitBytes data s) data := by
  refine ⟨⟨rfl, fun a ha => ?_⟩, fun k => ?_⟩
  · rw [readOut_emitBytes, dif_neg (by omega)]
  · rw [readOut_emitBytes, dif_pos (by omega)]
    simp

theorem step_scan {s : State} (h : ScanTurn s) : step s = scanStep s := by
  obtain ⟨⟨hhost, hp, hc, hq⟩, hip⟩ := h
  rw [step_eq_coreStep hhost, coreStep_compress_body hp hc hq, if_pos hip]

theorem step_finish {s : State} (h : FinishTurn s) : step s = finishCompress s := by
  obtain ⟨⟨hhost, hp, hc, hq⟩, hip⟩ := h
  rw [step_eq_coreStep hhost, coreStep_compress_body hp hc hq, if_neg (Nat.not_le.2 hip)]

theorem tagBits_eq (level : Level) : tagBits level = BitVec.ofNat 8 ((level.number - 1) <<< 5) := by
  rw [tagBits, Nat.shiftLeft_eq]

/-- OUT after the end of COMPRESS: the emitted run, with the tag in byte 0 (44_dispatcher.md R202). -/
theorem readOut_finished (s : State) (a : Nat) : readOut (finished s) a =
    if a = 0 then readOut (emitBytes (literalBytes (pendingRun s s.inLen)) s) 0 ||| tagBits s.level
    else readOut (emitBytes (literalBytes (pendingRun s s.inLen)) s) a :=
  readOut_writeOut (emitBytes (literalBytes (pendingRun s s.inLen)) s) 0 a _

/-- A scan position moves IP on and leaves the command running. -/
theorem scanStep_progress {s t : State} (h : scanStep s = .next t) :
    s.ip < t.ip ∧ t.phase = s.phase ∧ t.seq = s.seq := by
  rcases scanStep_cases s with hs | ⟨distance, L, hf, hs⟩
  · obtain rfl := Host.Outcome.next.inj (hs.symm.trans h)
    exact ⟨Nat.lt_succ_self _, rfl, rfl⟩
  · obtain ⟨_, h4, _⟩ := find_bounds hf
    have hcov := (matchTokens_covered_bounds s.level distance h4).1
    obtain rfl := withinOut_eq_next (hs.symm.trans h)
    exact ⟨show s.ip < s.ip + _ by omega, rfl, rfl⟩

/-- From a state of the invariant a scan position leads to one, nearer the end of IN. -/
theorem scanTurn_progress {s : State} (hinv : Inv s) (h : ScanTurn s) :
    ∃ t, step s = .next t ∧ Inv t ∧ CoreTurn t .compress .body ∧ s.ip < t.ip ∧ t.inLen = s.inLen := by
  have hscan := step_scan h
  obtain ⟨⟨hhost, hp, hc, hq⟩, hip⟩ := h
  have hbody := (busyInv_compress_body hc hq).1 (hinv.busy hp)
  obtain ⟨t, ht, htinv⟩ := scanStep_answersInv hinv.memories hp hc hq hbody hip
  obtain ⟨hlt, hphase, hseq⟩ := scanStep_progress ht
  have hkeep := scanStep_hostSide ht
  simp only [hostSide, Prod.mk.injEq] at hkeep
  obtain ⟨_, _, hlen, _, hcmd, _, _, hmoves⟩ := hkeep
  exact ⟨t, hscan.trans ht, htinv,
    ⟨hmoves.trans hhost, hphase.trans hp, hcmd.trans hc, hseq.trans hq⟩, hlt, hlen⟩

/-- COMPRESS is done, with OK and within twice its input (44_dispatcher.md R204). -/
structure CompressDone (inLen : Nat) (t : State) : Prop where
  phase : t.phase = .done
  code : t.code = .ok
  outLen : t.outLen ≤ 2 * inLen

theorem finishTurn_done {s : State} (hinv : Inv s) (h : FinishTurn s) :
    ∃ t, step s = .next t ∧ CompressDone s.inLen t := by
  have hfinish := step_finish h
  obtain ⟨⟨_, hp, hc, hq⟩, _⟩ := h
  have hbody := (busyInv_compress_body hc hq).1 (hinv.busy hp)
  obtain ⟨t, ht, _⟩ := finishCompress_answersInv hinv.memories hbody
  have hrun := literalBytes_pendingRun_length_le s s.inLen
  have hop := hbody.opLe
  have hanchor := hbody.anchorLe.trans hbody.ipLe
  obtain rfl := withinOut_eq_next ht
  exact ⟨_, hfinish.trans ht, rfl, rfl, show s.op + _ ≤ _ by omega⟩

theorem run_succ {s t : State} (h : step s = .next t) (k : Nat) :
    Host.Core.run Sys2Proof.core (k + 1) s = Host.Core.run Sys2Proof.core k t := by
  have hcore : Sys2Proof.core.step s = .next t := h
  simp only [Host.Core.run, hcore]

/-- The scan reaches its end: `n` bounds the scan positions still to come (40_match_finder.md R115). -/
theorem compressBody_done {s : State} (hinv : Inv s) (hturn : CoreTurn s .compress .body) {n : Nat}
    (hn : s.inLen - 3 ≤ s.ip + n) :
    ∃ k t, k ≤ n + 1 ∧ Host.Core.run Sys2Proof.core k s = .next t ∧ CompressDone s.inLen t := by
  induction n generalizing s with
  | zero =>
    obtain ⟨t, hstep, hdone⟩ := finishTurn_done hinv ⟨hturn, by omega⟩
    exact ⟨1, t, Nat.le_refl _, run_succ hstep 0, hdone⟩
  | succ n ih =>
    by_cases hip : s.ip + 4 ≤ s.inLen
    · obtain ⟨u, hstep, huinv, huturn, hlt, hlen⟩ := scanTurn_progress hinv ⟨hturn, hip⟩
      obtain ⟨k, t, hk, hrun, hdone⟩ := ih huinv huturn (by omega)
      exact ⟨k + 1, t, by omega, (run_succ hstep k).trans hrun, hlen ▸ hdone⟩
    · obtain ⟨t, hstep, hdone⟩ := finishTurn_done hinv ⟨hturn, by omega⟩
      exact ⟨1, t, by omega, run_succ hstep 0, hdone⟩

end Sys2Proof.Machine

/-! ## The statements about the match finder and the steps of COMPRESS -/

namespace Sys2Proof.Proofs

open Sys2Proof.Machine Sys2Proof.Safety

/-- Settles O44: every scan position of the invariant moves IP on, and the end step answers. -/
theorem compressTerminatesWithOk : Obligations.CompressTerminatesWithOk := by
  intro s hinv hturn hne
  have hstart := step_compress_start hturn hne
  obtain ⟨hhost, hp, hc, _⟩ := hturn
  obtain ⟨k, t, hk, hrun, hphase, hcode, hlen⟩ := compressBody_done (n := s.inLen - 3)
    (stepKeepsInv s _ hinv hstart) ⟨hhost, hp, hc, rfl⟩ (Nat.le_add_left _ _)
  exact ⟨k + 1, t, by omega, (run_succ hstart k).trans hrun, hphase, hcode, hlen⟩

/-- Settles O29: the slot's old occupant 0 is rejected, and RUN needs a byte before the position. -/
theorem unsetSlotGivesNoMatch : Obligations.UnsetSlotGivesNoMatch := by
  intro s p
  refine ⟨fun hslot hl => ?_, fun hslot hl => ?_, fun hslots => ?_⟩
  · rw [find_result, hslot, if_neg (by simp [hl]), judge_outside (.inl rfl)]
  · rw [find_result, hslot, judge_outside (.inl rfl)]
    split
    · rfl
    · next hno => exact (by simpa [hl] using hno : runShortcut s p = .noMatch).symm
  · cases hf : (find s 0).1 with
    | noMatch => rfl
    | matched distance L => exact absurd (find_bounds hf).1 (by decide)

/-- Settles O30: the Level1 test. -/
theorem level1AcceptanceTest : Obligations.Level1AcceptanceTest :=
  fun _ _ _ _ _ hl h1 hp => judge_one_iff hl h1 hp

/-- Settles O31: the near and the far test of Level2. -/
theorem level2AcceptanceTest : Obligations.Level2AcceptanceTest := by
  intro s p cand distance L hl h1 hp
  by_cases hnear : p - cand - 1 < 8191
  · rw [judge_near_iff hl h1 hp hnear]
    refine and_congr_right fun hd => ?_
    rw [if_pos (hd ▸ hnear)]
    constructor
    · rintro ⟨hagree, hL, h4⟩
      exact ⟨by omega, hagree, h4, hL⟩
    · rintro ⟨_, hagree, h4, hL⟩
      exact ⟨hagree, hL, h4⟩
  · rw [judge_far_iff hl h1 hp hnear]
    refine and_congr_right fun hd => and_congr_right fun _ => ?_
    rw [if_neg (hd ▸ hnear)]
    constructor
    · rintro ⟨hin, hagree, hL, h4⟩
      exact ⟨fun i hi => hagree i (by omega), h4, hin, hagree, hL⟩
    · rintro ⟨_, h4, hin, hagree, hL⟩
      exact ⟨hin, hagree, hL, h4⟩

/-- Settles O32: EXTEND has fuel enough to reach the end of IN. -/
theorem extensionIsMaximal : Obligations.ExtensionIsMaximal := extend_spec

/-- Settles O34: RUN and the test both extend bytes that agree. -/
theorem foundMatchesAreReal : Obligations.FoundMatchesAreReal := by
  intro s p distance L h
  exact ⟨fun i hi => ((find_reported h).agrees i hi).symm, (find_bounds h).2.2⟩

/-- Settles O35: the test's distance limits, and the five bytes of a far match. -/
theorem foundMatchesAreEncodable : Obligations.FoundMatchesAreEncodable := by
  intro s p distance L h
  obtain ⟨hpos, hle, _, hone, htwo⟩ := find_reported h
  exact ⟨(find_bounds h).2.1, hpos, hle, hone, htwo⟩

/-- Settles O42: the two kinds of scan position. -/
theorem scanStepByItsRule : Obligations.ScanStepByItsRule := by
  intro s hturn
  rw [step_scan hturn]
  refine ⟨fun hf => ⟨_, scanStep_noMatch hf, rfl, fun h => readSlot_writeSlot s _ h _⟩, fun distance L hf hroom => ?_⟩
  have hop : (matchEmitted s distance L).op ≤ s.outCap := by
    rw [matchEmitted_op]
    exact hroom
  exact ⟨_, (scanStep_matched hf).trans (withinOut_next hop), rfl, rfl, fun h => readSlot_writeSlot s _ h _,
    writesChunk_emitBytes _ _⟩

/-- Settles O43: the run is emitted at OP, and then byte 0 takes the tag. -/
theorem compressEndsByItsRule : Obligations.CompressEndsByItsRule := by
  intro s hturn hroom
  obtain ⟨⟨_, houtside⟩, hinside⟩ := writesChunk_emitBytes (literalBytes (pendingRun s s.inLen)) s
  refine ⟨finished s, (step_finish hturn).trans (withinOut_next hroom), rfl, rfl, fun k => ?_, fun a ha => ?_⟩
  · rw [readOut_finished, tagBits_eq, ← hinside k]
    split
    · next h0 => rw [h0]
    · rfl
  · rw [readOut_finished, tagBits_eq, houtside a ha]
    split
    · next h0 => rw [← houtside 0 (h0 ▸ ha)]
    · rfl

/-- Settles O27: the formula bit by bit, and four evaluations. -/
theorem defaultHashByItsFormula : Obligations.DefaultHashByItsFormula :=
  ⟨hashDefault_eq, by decide, by decide, by decide, by decide⟩

/-- Settles O28: FIND's state is the slot's write, and its result RUN's or the old occupant's. -/
theorem findOverwritesOneSlot : Obligations.FindOverwritesOneSlot := by
  intro s p
  refine ⟨hashAt_lt s p, ?_, ?_, fun h => ?_⟩
  · rw [find_result]
    cases hl : s.level with
    | one => rfl
    | two => by_cases hr : runShortcut s p = .noMatch <;> simp [hr]
  · rw [find_state]
    rfl
  · rw [find_state]
    exact readSlot_writeSlot s _ h p

end Sys2Proof.Proofs

/-! ## The literal tokens (30_encoding.md R73, R74, 41_literal.md R133, R134) -/

namespace Sys2Proof.Machine

open Sys2Proof.Safety

section LiteralBytes

variable {level : Level} {c : Byte} {data rest : List Byte}

/-- Bits 4:0 of byte 0 count the first chunk, under either known tag (30_encoding.md R71, R74). -/
theorem decode_lit0 (htag : c.toNat < 64) (hlen : data.length = c.toNat % 32 + 1) :
    decode ⟨true, level⟩ (c :: (data ++ rest)) = .ok (.lit0 (highBits c) data, rest) := by
  rw [decode_first, decodeFirst_eq_ok, highBits_toNat, lowBits_toNat]
  exact .inr ⟨by omega, data, hlen, rfl, rfl⟩

theorem highBits_eq_ofNat (c : Byte) : highBits c = BitVec.ofNat 3 (c.toNat / 32) := by
  rw [← highBits_toNat, BitVec.ofNat_toNat, BitVec.setWidth_eq]

/-- After the first token a control byte below 32 is a literal's (30_encoding.md R73). -/
theorem decode_lit (hctrl : c.toNat < 32) (hlen : data.length = c.toNat + 1) :
    decode ⟨false, level⟩ (c :: (data ++ rest)) = .ok (.lit data, rest) := by
  have hhigh : highBits c = 0#3 := by rw [highBits_eq_ofNat, Nat.div_eq_of_lt hctrl]
  rw [decode_literal hhigh, decodeChunk_eq_ok, lowBits_toNat, Nat.mod_eq_of_lt hctrl]
  exact ⟨data, hlen, rfl, rfl⟩

end LiteralBytes

/-- A raised error ends the command, with IP where the check left it (60_exceptions.md R224). -/
theorem failsWith_of_eq_raise {e : ErrorKind} {s : State} {ip : Nat} {a : Answer}
    (h : a = raise e { s with ip := ip }) : FailsWith e s a :=
  ⟨ip, _, h, rfl, rfl, rfl⟩

theorem chunkCopy_fails {data : List Byte} {s : State}
    (h : s.inLen < s.ip + data.length ∨ s.outCap < s.op + data.length) :
    chunkCopy data s = raise .corruptStream s := by
  rcases chunkCopy_cases data s with ⟨_, hfail⟩ | ⟨_, _, _⟩
  · exact hfail
  · omega

theorem chunkCopy_completes {data : List Byte} {s : State} (hin : s.ip + data.length ≤ s.inLen)
    (hout : s.op + data.length ≤ s.outCap) :
    chunkCopy data s = .next (emitBytes data { s with ip := s.ip + data.length }) := by
  rcases chunkCopy_cases data s with ⟨_, _⟩ | ⟨_, _, hnext⟩
  · omega
  · exact hnext

/-- A literal token whose control byte has been read and left FIRST at `first`: CorruptStream where the chunk passes the
end of IN or OUT_CAP, and else the chunk stands in OUT (41_literal.md R133). -/
structure ChunkOutcome (s : State) (a : Answer) (first : Bool) (data : List Byte) : Prop where
  pastIn : s.inLen < s.ip + 1 + data.length → FailsWith .corruptStream { s with first := first } a
  pastOut : s.ip + 1 + data.length ≤ s.inLen → s.outCap < s.op + data.length →
    FailsWith .corruptStream { s with first := first } a
  complete : s.ip + 1 + data.length ≤ s.inLen → s.op + data.length ≤ s.outCap →
    ∃ t, a = .next t ∧ TokenFrame s t ∧ t.first = first ∧ t.ip = s.ip + 1 + data.length ∧ WritesChunk s t data

theorem chunkCopy_outcome (s : State) (first : Bool) (data : List Byte) :
    ChunkOutcome s (chunkCopy data { s with ip := s.ip + 1, first := first }) first data where
  pastIn hin := failsWith_of_eq_raise (ip := s.ip + 1) (chunkCopy_fails (.inl hin))
  pastOut _ hout := failsWith_of_eq_raise (ip := s.ip + 1) (chunkCopy_fails (.inr hout))
  complete hin hout :=
    ⟨_, chunkCopy_completes hin hout, rfl, rfl, rfl,
      writesChunk_emitBytes data { s with ip := s.ip + 1 + data.length, first := first }⟩

/-- LIT0 clears FIRST once its control byte has been read (41_literal.md R134). -/
theorem exec_lit0_outcome (tag : BitVec 3) (data : List Byte) {s : State} (h : s.ip + 1 ≤ s.inLen) :
    ChunkOutcome s (exec (.lit0 tag data) s) false data := by
  have hexec : exec (.lit0 tag data) s = chunkCopy data { s with ip := s.ip + 1, first := false } :=
    takeBytes_ok [1] s _ h
  rw [hexec]
  exact chunkCopy_outcome s false data

/-- LIT leaves FIRST. Where even its control byte is missing, the chunk passes the end of IN as well. -/
theorem exec_lit_outcome (data : List Byte) (s : State) : ChunkOutcome s (exec (.lit data) s) s.first data := by
  rcases takeBytes_cases [1] s (chunkCopy data) (by decide) with ⟨_, hread⟩ | ⟨hshort, ip, _, _, _, hfail⟩
  · have hexec : exec (.lit data) s = chunkCopy data { s with ip := s.ip + 1 } := hread
    rw [hexec]
    exact chunkCopy_outcome s s.first data
  · have hcut : ¬ s.ip + 1 + data.length ≤ s.inLen := Nat.not_le.2 (Nat.lt_add_right _ hshort)
    exact ⟨fun _ => failsWith_of_eq_raise hfail, fun hin => absurd hin hcut, fun hin => absurd hin hcut⟩

/-! ## The chunks of a literal run (41_literal.md R130) -/

/-- The chunks a run is cut into, from the front. -/
def literalChunks : List Byte → List (List Byte)
  | [] => []
  | b :: bs => (b :: bs).take 32 :: literalChunks ((b :: bs).drop 32)
termination_by run => run.length
decreasing_by simp only [List.length_drop, List.length_cons]; omega

@[simp] theorem literalChunks_nil : literalChunks [] = [] := by rw [literalChunks]

theorem literalChunks_cons (b : Byte) (bs : List Byte) :
    literalChunks (b :: bs) = (b :: bs).take 32 :: literalChunks ((b :: bs).drop 32) := by rw [literalChunks]

theorem literalChunks_flatten (run : List Byte) : (literalChunks run).flatten = run := by
  induction run using literalChunks.induct with
  | case1 => rw [literalChunks_nil, List.flatten_nil]
  | case2 b bs ih => rw [literalChunks_cons, List.flatten_cons, ih, List.take_append_drop]

theorem literalChunks_length_bounds (run : List Byte) : ∀ c ∈ literalChunks run, 1 ≤ c.length ∧ c.length ≤ 32 := by
  induction run using literalChunks.induct with
  | case1 => simp
  | case2 b bs ih =>
    rw [literalChunks_cons, List.forall_mem_cons]
    refine ⟨?_, ih⟩
    rw [List.length_take, List.length_cons]
    omega

/-- Bytes are left after a chunk only where it took 32. -/
theorem literalChunks_dropLast_full (run : List Byte) : ∀ c ∈ (literalChunks run).dropLast, c.length = 32 := by
  induction run using literalChunks.induct with
  | case1 => simp
  | case2 b bs ih =>
    rw [literalChunks_cons]
    by_cases hlast : (b :: bs).drop 32 = []
    · simp [hlast]
    · have hrest : literalChunks ((b :: bs).drop 32) ≠ [] := fun h =>
        hlast (by rw [← literalChunks_flatten ((b :: bs).drop 32), h, List.flatten_nil])
      rw [List.dropLast_cons_of_ne_nil hrest, List.forall_mem_cons]
      refine ⟨?_, ih⟩
      have hlong : 32 < (b :: bs).length := Nat.lt_of_not_le fun h => hlast (List.drop_eq_nil_of_le h)
      rw [List.length_take, Nat.min_eq_left hlong.le]

/-- The control byte of a chunk as the encoder computes it (41_literal.md R130). -/
theorem encode_lit {c : List Byte} (h : c.length ≤ 32) : encode (.lit c) = BitVec.ofNat 8 (c.length - 1) :: c := by
  have hctrl := controlByte_ofNat 0 (show c.length - 1 < 32 by omega)
  rw [Nat.zero_mul, Nat.zero_add] at hctrl
  exact congrArg (· :: c) hctrl

/-- EMIT_LITERALS with fuel for every chunk emits the LIT token of each. -/
theorem chunksOf_eq_encode_chunks {fuel : Nat} {run : List Byte} (h : run.length ≤ fuel) :
    chunksOf fuel run = ((literalChunks run).map fun c => encode (.lit c)).flatten := by
  induction fuel generalizing run with
  | zero => simp [chunksOf, List.eq_nil_of_length_eq_zero (Nat.le_zero.1 h)]
  | succ fuel ih =>
    cases run with
    | nil => simp [chunksOf]
    | cons b bs =>
      have hrest := ih (run := (b :: bs).drop 32) (by rw [List.length_drop]; omega)
      rw [literalChunks_cons, List.map_cons, List.flatten_cons, encode_lit (List.length_take_le 32 _), ← hrest]
      rfl

end Sys2Proof.Machine

/-! ## The statements about literals -/

namespace Sys2Proof.Proofs

open Sys2Proof.Machine Sys2Proof.Safety

/-- Settles O8: the decoder's first clause, and the chunk's outcome with FIRST cleared. -/
theorem lit0ByItsRule : Obligations.Lit0ByItsRule := by
  refine ⟨fun level byte0 data rest htag hlen => ?_, fun tag data s hctrl => ?_⟩
  · rw [← highBits_eq_ofNat]
    exact decode_lit0 htag hlen
  · obtain ⟨hpastIn, hpastOut, hcomplete⟩ := exec_lit0_outcome tag data hctrl
    exact ⟨hpastIn, hpastOut, hcomplete⟩

/-- Settles O9: the decoder's literal clause, and the chunk's outcome with FIRST as it was. -/
theorem litByItsRule : Obligations.LitByItsRule := by
  refine ⟨fun level ctrl data rest hctrl hlen => decode_lit hctrl hlen, fun data s => ?_⟩
  obtain ⟨hpastIn, hpastOut, hcomplete⟩ := exec_lit_outcome data s
  exact ⟨hpastIn, hpastOut, hcomplete⟩

/-- Settles O36: the chunks are those the encoder takes one by one off the front. -/
theorem literalRunIsCutFromTheFront : Obligations.LiteralRunIsCutFromTheFront := fun run =>
  ⟨⟨literalChunks run, chunksOf_eq_encode_chunks (Nat.le_refl _), literalChunks_flatten run,
    literalChunks_length_bounds run, literalChunks_dropLast_full run⟩, literalBytes_length run⟩

end Sys2Proof.Proofs

/-! ## The match tokens (30_encoding.md R75, R76, R81, R82, 42_level1.md R155 to R158) -/

namespace Sys2Proof.Machine

open Sys2Proof.Safety

/-! The fields of a control byte, and the Level1 tokens they begin -/

section ControlFields

variable {c e dl : Byte} {rest : List Byte}

/-- A short match's control byte has bits 7:5 in 1 to 6 (30_encoding.md R75). -/
theorem shortCodeOk_highBits_iff : shortCodeOk (highBits c) = true ↔ 1 ≤ c.toNat >>> 5 ∧ c.toNat >>> 5 ≤ 6 := by
  rw [shortCodeOk_iff, highBits_toNat, Nat.shiftRight_eq_div_pow]

theorem highBits_eq_ofNat_shiftRight (c : Byte) : highBits c = BitVec.ofNat 3 (c.toNat >>> 5) := by
  rw [highBits_eq_ofNat, Nat.shiftRight_eq_div_pow]

theorem lowBits_eq_ofNat_and (c : Byte) : lowBits c = BitVec.ofNat 5 (c.toNat &&& 31) := by
  apply BitVec.eq_of_toNat_eq
  rw [lowBits_toNat, BitVec.toNat_ofNat, Nat.and_two_pow_sub_one_eq_mod _ 5, Nat.mod_mod]

theorem decode_m1s (h : shortCodeOk (highBits c) = true) :
    decode ⟨false, .one⟩ (c :: dl :: rest) = .ok (.m1s (highBits c) (lowBits c) dl, rest) := by
  obtain ⟨h0, h7⟩ := shortCodeOk_iff_ne.1 h
  rw [decode_match1 h0, decodeMatch1_eq_ok]
  exact .inr ⟨h7, dl, rfl, rfl⟩

/-- The one byte after the control byte is the whole extension (42_level1.md R156). -/
theorem decode_m1l (h : highBits c = 7#3) :
    decode ⟨false, .one⟩ (c :: e :: dl :: rest) = .ok (.m1l (lowBits c) e dl, rest) := by
  rw [decode_match1 (by rw [h]; decide), decodeMatch1_eq_ok]
  exact .inl ⟨h, e, dl, rfl, rfl⟩

end ControlFields

/-! The operands of a Level1 match -/

theorem nearDist_eq (dh : BitVec 5) (dl : Byte) : nearDist dh dl = dh.toNat <<< 8 ||| dl.toNat :=
  (shiftLeft_or_byte dh.toNat dl).symm

/-- With no far escape a near distance fills its 13 bits (30_encoding.md R82). -/
theorem nearDist_le (dh : BitVec 5) (dl : Byte) : nearDist dh dl ≤ 8191 := by
  unfold nearDist
  omega

theorem extendedLen_bounds (e : Byte) : 10 ≤ rawLen (extendedLen e) ∧ rawLen (extendedLen e) ≤ 265 := by
  unfold rawLen extendedLen Config.lenBias
  omega

/-! MATCH_COPY (42_level1.md R157, 70_reset_and_hazards.md R255) -/

section MatchCopy

variable {s t : State} {i : Instr} {gs : List Nat} {a : Answer} {size dist distance L : Nat}

theorem copiesBack_copied (h : dist + 1 ≤ s.op) (L : Nat) : CopiesBack s (copied dist L s) (dist + 1) L :=
  ⟨⟨rfl, fun a ha => readOut_copied_outside dist L s a ha⟩, fun k hk => readOut_copied_inside dist L s k h hk⟩

theorem matchCopy_fails (h : s.op < dist + 1 ∨ s.outCap < s.op + L) :
    matchCopy dist L s = raise .corruptStream s := by
  rcases matchCopy_cases dist L s with ⟨_, hfail⟩ | ⟨_, _, _⟩
  · exact hfail
  · omega

theorem matchCopy_completes (href : dist + 1 ≤ s.op) (hout : s.op + L ≤ s.outCap) :
    matchCopy dist L s = .next (copied dist L s) := by
  rcases matchCopy_cases dist L s with ⟨_, _⟩ | ⟨_, _, hnext⟩
  · omega
  · exact hnext

/-- A match token's checked reads, then MATCH_COPY: each of its outcomes. -/
theorem matchToken_outcome (he : exec i s = takeBytes gs s (matchCopy dist L)) (hs : gs.sum = tokenSize i)
    (h1 : 1 ≤ gs.sum) : MatchOutcome s (exec i s) (tokenSize i) dist L := by
  rw [he, ← hs]
  rcases takeBytes_cases gs s (matchCopy dist L) h1 with ⟨hin, hread⟩ | ⟨hshort, ip, _, _, _, hfail⟩
  · rw [hread]
    exact ⟨fun hcut => absurd hin (Nat.not_le.2 hcut),
      fun _ href => failsWith_of_eq_raise (matchCopy_fails (.inl href)),
      fun _ _ hout => failsWith_of_eq_raise (matchCopy_fails (.inr hout)),
      fun _ href hout => ⟨_, matchCopy_completes href hout, rfl, rfl, rfl,
        copiesBack_copied (s := { s with ip := s.ip + gs.sum }) href L⟩⟩
  · have hcut : ¬ s.ip + gs.sum ≤ s.inLen := Nat.not_le.2 hshort
    exact ⟨fun _ => failsWith_of_eq_raise hfail, fun hin => absurd hin hcut, fun hin => absurd hin hcut,
      fun hin => absurd hin hcut⟩

/-- Every match token has the outcomes of MATCH_COPY, by its own size and operands (30_encoding.md R81, R82, R87). -/
theorem exec_match_outcome (h : operandsOf i = some (dist + 1, L)) (s : State) :
    MatchOutcome s (exec i s) (tokenSize i) dist L := by
  cases i with
  | m1s | m1l | m2ns | m2fs => cases h; exact matchToken_outcome rfl rfl (by decide)
  | m2nl | m2fl => cases h; exact matchToken_outcome rfl (by simp [tokenSize]; omega) (by simp)
  | _ => cases h

theorem distance_pos_of_operandsOf (h : operandsOf i = some (distance, L)) : 1 ≤ distance := by
  cases i <;> cases h <;> exact Nat.succ_pos _

theorem phase_of_failsWith {e : ErrorKind} (h : FailsWith e s (.next t)) : t.phase = .done := by
  obtain ⟨_, _, ht, _, hphase, _⟩ := h
  cases ht
  exact hphase

/-- A match token that goes on has passed every check. -/
theorem copiesBack_of_matchOutcome (h : MatchOutcome s (.next t) size dist L) (hphase : t.phase ≠ .done) :
    dist + 1 ≤ s.op ∧ CopiesBack s t (dist + 1) L := by
  obtain ⟨hcut, href, hout, hcomplete⟩ := h
  have hpassed : ¬ FailsWith .corruptStream s (.next t) := mt phase_of_failsWith hphase
  have hin : s.ip + size ≤ s.inLen := Nat.not_lt.1 (mt hcut hpassed)
  have hback : dist + 1 ≤ s.op := Nat.not_lt.1 (mt (href hin) hpassed)
  have hroom : s.op + L ≤ s.outCap := Nat.not_lt.1 (mt (hout hin hback) hpassed)
  obtain ⟨_, ht, _, _, _, hcopies⟩ := hcomplete hin hback hroom
  cases ht
  exact ⟨hback, hcopies⟩

/-- The closed form of the overlapping copy: byte `k` reads `distance` back, out of the old OUT in the first period, and
out of the copy itself after it. -/
theorem readOut_of_copiesBack (h : CopiesBack s t distance L) (hpos : 1 ≤ distance) (hback : distance ≤ s.op)
    {k : Nat} (hk : k < L) : readOut t (s.op + k) = readOut s (s.op - distance + k % distance) := by
  obtain ⟨⟨_, hsame⟩, hcopy⟩ := h
  induction k using Nat.strong_induction_on with
  | _ k ih =>
    rw [hcopy k hk]
    by_cases hfirst : k < distance
    · rw [hsame _ (.inl (by omega)), Nat.mod_eq_of_lt hfirst, Nat.sub_add_comm hback]
    · have hprev := ih (k - distance) (by omega) (by omega)
      rw [Nat.add_sub_assoc (Nat.not_lt.1 hfirst), hprev, Nat.mod_eq_sub_mod (Nat.not_lt.1 hfirst)]

end MatchCopy

end Sys2Proof.Machine

/-! ## The statements about the Level1 match tokens and the overlapping copy -/

namespace Sys2Proof.Proofs

open Sys2Proof.Machine Sys2Proof.Safety

/-- Settles O5: the short code or the one extension byte bounds the length, 13 bits the distance. -/
theorem level1TokenRanges : Obligations.Level1TokenRanges := by
  intro i distance L hwf hlegal hops
  cases i with
  | m1s lc dh dl =>
    obtain ⟨h4, h9⟩ := shortLen_bounds hwf
    have hdist := nearDist_le dh dl
    cases hops
    exact ⟨h4, by omega, by omega, by omega⟩
  | m1l dh e dl =>
    obtain ⟨h10, h265⟩ := extendedLen_bounds e
    have hdist := nearDist_le dh dl
    cases hops
    exact ⟨by omega, h265, by omega, by omega⟩
  | m2ns | m2nl | m2fs | m2fl => simp [legalIn] at hlegal
  | _ => cases hops

/-- Settles O10: the decoder's short clause, and the outcomes of MATCH_COPY by the operands M1S carries. -/
theorem m1SByItsRule : Obligations.M1SByItsRule := by
  refine ⟨fun ctrl dl rest h1 h6 => ?_, fun lc dh dl s => ?_⟩
  · rw [← highBits_eq_ofNat_shiftRight, ← lowBits_eq_ofNat_and]
    exact decode_m1s (shortCodeOk_highBits_iff.2 ⟨h1, h6⟩)
  · rw [← nearDist_eq]
    exact exec_match_outcome (i := .m1s lc dh dl) rfl s

/-- Settles O11: the decoder's clause for code 7, and the outcomes of MATCH_COPY by the operands M1L carries. -/
theorem m1LByItsRule : Obligations.M1LByItsRule := by
  refine ⟨fun ctrl e dl rest h7 => ?_, fun dh e dl s => ?_⟩
  · rw [← lowBits_eq_ofNat_and]
    exact decode_m1l (by rw [highBits_eq_ofNat_shiftRight, h7])
  · rw [← nearDist_eq]
    exact exec_match_outcome (i := .m1l dh e dl) rfl s

/-- Settles O17: a match that goes on has passed its checks, and its copy repeats the period before OP. -/
theorem matchCopyRepeatsItsPeriod : Obligations.MatchCopyRepeatsItsPeriod := by
  intro i s t distance L hops hexec hphase k hk
  obtain ⟨dist, rfl⟩ := Nat.exists_eq_add_of_le' (distance_pos_of_operandsOf hops)
  have houtcome := exec_match_outcome hops s
  rw [hexec] at houtcome
  obtain ⟨hback, hcopies⟩ := copiesBack_of_matchOutcome houtcome hphase
  exact readOut_of_copiesBack hcopies (Nat.succ_pos dist) hback hk

end Sys2Proof.Proofs

/-! ## The Level2 match tokens and their length bytes (43_level2.md R174, R180 to R184) -/

namespace Sys2Proof.Machine

section Level2Tokens

variable {c last dl fh fl : Byte} {k : Nat} {rest : List Byte}

theorem lowBits_eq_31_iff : lowBits c = 31#5 ↔ c.toNat &&& 31 = 31 := by
  rw [← BitVec.toNat_inj, lowBits_toNat, ← Nat.and_two_pow_sub_one_eq_mod _ 5]
  rfl

/-- The far escape, read off a control byte and its low byte (30_encoding.md R79). -/
theorem nearOk_lowBits_iff : nearOk (lowBits c) dl = true ↔ ¬ (c.toNat &&& 31 = 31 ∧ dl = Config.farMarker) := by
  rw [nearOk_iff, lowBits_eq_31_iff, and_comm]

theorem lengthBytes_append (k : Nat) (last : Byte) (bs : List Byte) :
    lengthBytes k last ++ bs = List.replicate k Config.cont ++ last :: bs := by
  rw [lengthBytes, List.append_assoc, List.singleton_append]

/-! Which bytes decode to each kind: the bytes of the token, with the control byte whole -/

theorem decode_m2ns (hcode : shortCodeOk (highBits c) = true) (hnear : nearOk (lowBits c) dl = true) :
    decode ⟨false, .two⟩ (c :: dl :: rest) = .ok (.m2ns (highBits c) (lowBits c) dl, rest) :=
  decode_eq_ok_iff.2 ⟨(Bool.and_eq_true _ _).mpr ⟨hcode, hnear⟩, rfl, by simp [encode]⟩

theorem decode_m2nl (h7 : highBits c = 7#3) (hlast : terminatorOk last = true)
    (hnear : nearOk (lowBits c) dl = true) :
    decode ⟨false, .two⟩ (c :: (List.replicate k Config.cont ++ last :: dl :: rest)) =
      .ok (.m2nl (lowBits c) k last dl, rest) :=
  decode_eq_ok_iff.2 ⟨(Bool.and_eq_true _ _).mpr ⟨hlast, hnear⟩, rfl, by simp [encode, ← h7, lengthBytes_append]⟩

theorem decode_m2fs (hcode : shortCodeOk (highBits c) = true) (h31 : lowBits c = 31#5) :
    decode ⟨false, .two⟩ (c :: Config.farMarker :: fh :: fl :: rest) = .ok (.m2fs (highBits c) fh fl, rest) :=
  decode_eq_ok_iff.2 ⟨hcode, rfl, by simp [encode, ← h31]⟩

theorem decode_m2fl (hlast : terminatorOk last = true) :
    decode ⟨false, .two⟩ (controlByte 7#3 31#5 ::
      (List.replicate k Config.cont ++ last :: Config.farMarker :: fh :: fl :: rest)) =
      .ok (.m2fl k last fh fl, rest) :=
  decode_eq_ok_iff.2 ⟨hlast, rfl, by simp [encode, lengthBytes_append]⟩

/-! The operands of a Level2 match -/

theorem farDist_eq_add (fh fl : Byte) : farDist fh fl = 8191 + (fh.toNat <<< 8 ||| fl.toNat) := by
  have hdist := farDist_eq fh fl
  omega

theorem lengthBytes_sum (k : Nat) (last : Byte) :
    ((lengthBytes k last).map BitVec.toNat).sum = 255 * k + last.toNat := by
  simp [lengthBytes, Config.cont, Nat.mul_comm]

/-- The biased length is the sum of the length bytes above 7, however many there are (43_level2.md R184). -/
theorem longLen_eq_sum (k : Nat) (last : Byte) :
    longLen k last = 7 + ((lengthBytes k last).map BitVec.toNat).sum := by
  rw [lengthBytes_sum, longLen]

/-- LENBYTES answers the length bytes of a token (43_level2.md R174). -/
theorem lenBytes_eq_lengthBytes (len : Nat) :
    lenBytes len = lengthBytes ((len - 7) / 255) (BitVec.ofNat 8 ((len - 7) % 255)) := rfl

/-- LENBYTES sums to what the decoder adds to 7 (43_level2.md R174, R184). -/
theorem lenBytes_sum {len : Nat} (h7 : 7 ≤ len) : ((lenBytes len).map BitVec.toNat).sum = len - 7 := by
  have hlen := longLen_ofNat h7
  rw [longLen_eq_sum, ← lenBytes_eq_lengthBytes] at hlen
  omega

end Level2Tokens

end Sys2Proof.Machine

/-! ## The statements about the Level2 match tokens, the run shortcut and the length bytes -/

namespace Sys2Proof.Proofs

open Sys2Proof.Machine Sys2Proof.Safety

/-- Settles O12: the decoder's short near clause, and the outcomes of MATCH_COPY by the operands M2NS carries. -/
theorem m2NSByItsRule : Obligations.M2NSByItsRule := by
  refine ⟨fun ctrl dl rest h1 h6 hnear => ?_, fun lc dh dl s => ?_⟩
  · rw [← highBits_eq_ofNat_shiftRight, ← lowBits_eq_ofNat_and]
    exact decode_m2ns (shortCodeOk_highBits_iff.2 ⟨h1, h6⟩) (nearOk_lowBits_iff.2 hnear)
  · rw [← nearDist_eq]
    exact exec_match_outcome (i := .m2ns lc dh dl) rfl s

/-- Settles O13: the decoder's long near clause, and the outcomes of MATCH_COPY by the operands M2NL carries. -/
theorem m2NLByItsRule : Obligations.M2NLByItsRule := by
  refine ⟨fun ctrl last dl conts rest h7 hlast hnear => ?_, fun dh conts last dl s => ?_⟩
  · rw [← lowBits_eq_ofNat_and]
    exact decode_m2nl (by rw [highBits_eq_ofNat_shiftRight, h7]) (terminatorOk_iff.2 hlast)
      (nearOk_lowBits_iff.2 hnear)
  · rw [← nearDist_eq, ← longLen_eq_sum, Nat.add_comm (conts + 1)]
    exact exec_match_outcome (i := .m2nl dh conts last dl) rfl s

/-- Settles O14: the decoder's short far clause, and the outcomes of MATCH_COPY by the operands M2FS carries. -/
theorem m2FSByItsRule : Obligations.M2FSByItsRule := by
  refine ⟨fun ctrl fh fl rest h1 h6 h31 => ?_, fun lc fh fl s => ?_⟩
  · rw [← highBits_eq_ofNat_shiftRight]
    exact decode_m2fs (shortCodeOk_highBits_iff.2 ⟨h1, h6⟩) (lowBits_eq_31_iff.2 h31)
  · rw [← farDist_eq_add]
    exact exec_match_outcome (i := .m2fs lc fh fl) rfl s

/-- Settles O15: the decoder's long far clause, whose control byte is 255, and the outcomes of MATCH_COPY by the operands
M2FL carries. -/
theorem m2FLByItsRule : Obligations.M2FLByItsRule := by
  refine ⟨fun last fh fl conts rest hlast => ?_, fun conts last fh fl s => ?_⟩
  · exact decode_m2fl (terminatorOk_iff.2 hlast)
  · rw [← farDist_eq_add, ← longLen_eq_sum, Nat.add_comm (conts + 1)]
    exact exec_match_outcome (i := .m2fl conts last fh fl) rfl s

/-- Settles O33: RUN tests the three bytes and MIN_MATCH. -/
theorem runShortcutByItsRule : Obligations.RunShortcutByItsRule := fun _ _ _ _ => runShortcut_eq_matched_iff

/-- Settles O37: LENBYTES is a quotient of 255s and a remainder below 255. -/
theorem lengthBytesSumToTheLength : Obligations.LengthBytesSumToTheLength := fun len h7 =>
  ⟨BitVec.ofNat 8 ((len - 7) % 255), rfl, terminatorOk_iff.1 (terminatorOk_ofNat _), lenBytes_sum h7⟩

end Sys2Proof.Proofs

/-! ## The steps of DECOMPRESS (44_dispatcher.md R205 to R207) -/

namespace Sys2Proof.Machine

open Sys2Proof.Safety

/-- The `n` bytes of `f` from position `p` on. -/
def bytesAt (f : Nat → Byte) (p n : Nat) : List Byte := (List.range' p n).map f

theorem outBytes_eq_bytesAt (s : State) (a n : Nat) : outBytes s a n = bytesAt (readOut s) a n := by
  induction n generalizing a with
  | zero => rfl
  | succ n ih => rw [outBytes, ih, bytesAt, bytesAt, List.range'_succ, List.map_cons]

/-- The result of a command that succeeds (60_exceptions.md R225). -/
theorem result?_of_ok {s : State} (hp : s.phase = .done) (hc : s.code = .ok) :
    result? s = some (bytesAt (readOut s) 0 s.outLen) := by
  simp [result?, statusDone, hp, hc, outBytes_eq_bytesAt]

theorem step_token {s : State} (h : TokenTurn s) : step s = perform (tokenPlan s) := by
  obtain ⟨⟨hhost, hp, hc, hq⟩, hip⟩ := h
  rw [step_eq_coreStep hhost, coreStep_decompress_body hp hc hq, if_pos hip]

theorem step_decompress_end {s : State} (hturn : CoreTurn s .decompress .body) (hip : s.inLen ≤ s.ip) :
    step s = .next (succeed s) := by
  obtain ⟨hhost, hp, hc, hq⟩ := hturn
  rw [step_eq_coreStep hhost, coreStep_decompress_body hp hc hq, if_neg (Nat.not_lt.2 hip)]

theorem step_startDecompress {s : State} (hturn : CoreTurn s .decompress .start) :
    step s = perform (startDecompressPlan s) := by
  obtain ⟨hhost, hp, hc, hq⟩ := hturn
  rw [step_eq_coreStep hhost, coreStep_decompress_start hp hc hq]

/-! One token step -/

/-- The command has ended, and not with OK. -/
def EndedOnError (t : State) : Prop := t.phase = .done ∧ t.code ≠ .ok

theorem raise_endsOnError (e : ErrorKind) (s : State) : ∃ t, raise e s = .next t ∧ EndedOnError t :=
  ⟨_, rfl, rfl, by cases e <;> nofun⟩

/-- A token that does not end the command is at least a control byte and one byte more (30_encoding.md R87). -/
theorem two_le_tokenSize {i : Instr} {s t : State} (hwf : i.wellFormed = true) (h : exec i s = .next t)
    (hphase : t.phase ≠ .done) : 2 ≤ tokenSize i := by
  cases i with
  | lit0 tag data =>
    have hchunk := (chunkOk_iff.1 ((Bool.and_eq_true _ _).mp hwf).2).1
    rw [tokenSize]
    omega
  | lit data =>
    have hchunk := (chunkOk_iff.1 hwf).1
    rw [tokenSize]
    omega
  | tagRsv23 | tagRsv47 =>
    obtain rfl := Host.Outcome.next.inj h
    exact absurd rfl hphase
  | _ => simp only [tokenSize]; omega

/-- A decoded token that does not end the command leaves FIRST at 0 (10_state.md R26, 41_literal.md R134). -/
theorem decodedToken_clears_first {s t : State} {i : Instr} {rest : List Byte} (hip : s.ip < s.inLen)
    (hdec : decode (tokenContext s) (tokenWindow s) = .ok (i, rest)) (h : exec i s = .next t)
    (hphase : t.phase ≠ .done) (hfirst : t.first = s.first ∨ t.first = false) : t.first = false := by
  cases hs : s.first with
  | false => exact hfirst.elim (·.trans hs) id
  | true => exact (exec_firstToken (ctx := tokenContext s) hs hdec hip h).resolve_left hphase

/-- What a token step that goes on does to the cursors (44_dispatcher.md R206). -/
structure Consumes (s t : State) : Prop where
  frame : TokenFrame s t
  ip : s.ip + 2 ≤ t.ip
  ipLe : t.ip ≤ s.inLen
  first : t.first = false
  op : s.op ≤ t.op
  opLe : t.op ≤ s.outCap

/-- Everything a token step can do: end on an error, or consume a token (44_dispatcher.md R206). -/
theorem tokenStep_cases {s : State} (hp : s.phase = .busy) (hip : s.ip < s.inLen) :
    ∃ t, perform (tokenPlan s) = .next t ∧ (EndedOnError t ∨ Consumes s t) := by
  rcases tokenPlan_cases s with ⟨i, rest, hdec, hs⟩ | ⟨r, _, hs⟩
  · rcases exec_cases i s with ⟨e, j, b, _, _, _, he⟩ | ⟨t, he, hframe, hsize, hipLe, hop, hfirst, happ⟩
    · obtain ⟨t, ht, hend⟩ := raise_endsOnError e { s with ip := j, first := b }
      exact ⟨t, hs.trans (he.trans ht), .inl hend⟩
    · have hphase : t.phase ≠ .done := by rw [hframe]; simp [hp]
      have htwo := two_le_tokenSize (decode_encodes hdec).wellFormed he hphase
      exact ⟨t, hs.trans he, .inr ⟨hframe, by omega, hipLe,
        decodedToken_clears_first hip hdec he hphase hfirst, happ.opLe, hop⟩⟩
  · obtain ⟨t, ht, hend⟩ := raise_endsOnError .corruptStream (clearFirst { s with ip := s.ip + r.used })
    exact ⟨t, hs.trans ht, .inl hend⟩

theorem coreTurn_of_tokenFrame {s t : State} {c : Command} {q : Seq} (h : CoreTurn s c q) (hframe : TokenFrame s t) :
    CoreTurn t c q := by
  rw [hframe]
  exact h

/-- The tokens reach their end: twice `n` bounds the bytes of IN still to come (44_dispatcher.md R206). -/
theorem decompressBody_done {s : State} (hturn : CoreTurn s .decompress .body) {n : Nat}
    (hn : s.inLen ≤ s.ip + 2 * n) :
    ∃ k t, k ≤ n + 1 ∧ Host.Core.run Sys2Proof.core k s = .next t ∧ t.phase = .done := by
  induction n generalizing s with
  | zero => exact ⟨1, _, Nat.le_refl _, run_succ (step_decompress_end hturn hn) 0, rfl⟩
  | succ n ih =>
    by_cases hip : s.ip < s.inLen
    · obtain ⟨u, hu, hend | hconsumes⟩ := tokenStep_cases hturn.2.1 hip
      · exact ⟨1, u, by omega, run_succ ((step_token ⟨hturn, hip⟩).trans hu) 0, hend.1⟩
      · have hlen : u.inLen = s.inLen := by rw [hconsumes.frame]
        have hmoved := hconsumes.ip
        obtain ⟨k, t, hk, hrun, hphase⟩ := ih (coreTurn_of_tokenFrame hturn hconsumes.frame) (by omega)
        exact ⟨k + 1, t, by omega, (run_succ ((step_token ⟨hturn, hip⟩).trans hu) k).trans hrun, hphase⟩
    · exact ⟨1, _, by omega, run_succ (step_decompress_end hturn (Nat.not_lt.1 hip)) 0, rfl⟩

/-! No move of the host faults (60_exceptions.md R236) -/

theorem whenNotBusy_not_fault (s s' : State) (f : Fault) : whenNotBusy s s' ≠ .fault f := by
  unfold whenNotBusy
  split <;> nofun

theorem writeCommand_not_fault (v : Nat) (s : State) (f : Fault) : writeCommand v s ≠ .fault f :=
  writeTarget_not_fault v s (some .cmd) f

theorem hostMove_not_fault (m : HostOp) (s : State) (f : Fault) : hostMove m s ≠ .fault f := by
  cases m with
  | writeIn | writeOut | writeInLen | writeOutCap => exact whenNotBusy_not_fault _ _ f
  | writeCmd v => exact writeCommand_not_fault v s f
  | writeAt a v => exact writeTarget_not_fault v s _ f
  | reset | pass | waitDone => nofun

/-- An error's end of the command (60_exceptions.md R224). -/
theorem endsWith_raise (e : ErrorKind) (s : State) : EndsWith e s (raise e s) := ⟨_, rfl, rfl, rfl, rfl⟩

/-- LEVEL is 1 exactly below the threshold (44_dispatcher.md R201). -/
theorem chooseLevel_eq_one_iff (n : Nat) : chooseLevel n = .one ↔ n < 65536 := by
  unfold chooseLevel Config.levelThreshold
  split
  · next h => exact iff_of_true rfl h
  · next h => exact iff_of_false nofun h

end Sys2Proof.Machine

/-! ## The statements about the commands: their starts, their steps and their ends -/

namespace Sys2Proof.Proofs

open Sys2Proof.Machine Sys2Proof.Safety

/-- Settles O45: every token step ends the command or takes two bytes, and the end of IN ends it. -/
theorem decompressTerminates : Obligations.DecompressTerminates := by
  intro s hturn _
  have hstart := step_startDecompress hturn
  rcases startDecompress_cases s with ⟨e, hs⟩ | ⟨_, _, hs⟩
  · exact ⟨1, _, by omega, run_succ (hstart.trans hs) 0, rfl⟩
  · obtain ⟨hhost, hp, hc, _⟩ := hturn
    obtain ⟨k, t, hk, hrun, hphase⟩ := decompressBody_done (s := startTokens s) (n := (s.inLen + 1) / 2)
      ⟨hhost, hp, hc, rfl⟩ (by simp only [startTokens_inLen, startTokens_ip]; omega)
    exact ⟨k + 1, t, by omega, (run_succ (hstart.trans hs) k).trans hrun, hphase⟩

/-- Settles O55: the core's move from the invariant answers a state, and no move of the host faults. -/
theorem noStepFaults : Obligations.NoStepFaults := by
  intro s f hinv hfault
  rcases step_cases s with ⟨moves, hs⟩ | ⟨m, rest, _, hs⟩
  · obtain ⟨t, ht, _⟩ := coreStep_answersInv (hinv.withHost moves)
    rw [hs, ht] at hfault
    cases hfault
  · exact hostMove_not_fault m { s with host := rest } f (hs.symm.trans hfault)

/-- Settles O23: the two outcomes of a token step. -/
theorem tokenStepConsumesTwoBytes : Obligations.TokenStepConsumesTwoBytes := by
  intro s hturn
  obtain ⟨t, ht, hcases⟩ := tokenStep_cases hturn.1.2.1 hturn.2
  refine ⟨t, (step_token hturn).trans ht, hcases.imp_right fun hconsumes => ?_⟩
  obtain ⟨_, hp, _, _⟩ := coreTurn_of_tokenFrame hturn.1 hconsumes.frame
  exact ⟨hp, hconsumes.ip, hconsumes.ipLe, hconsumes.first, hconsumes.op, hconsumes.opLe⟩

/-- Settles O40: the tokens of each level are no longer than what they cover. -/
theorem matchTokensNeverExpand : Obligations.MatchTokensNeverExpand :=
  fun level distance _ h4 => matchTokens_length_le level distance h4

/-- Settles O41: the start block of COMPRESS, with its error first. -/
theorem compressStartsByItsRule : Obligations.CompressStartsByItsRule := by
  intro s hturn
  refine ⟨fun hempty => ?_, fun hne => ?_⟩
  · obtain ⟨hhost, hp, hc, hq⟩ := hturn
    rw [step_eq_coreStep hhost, coreStep_compress_start hp hc hq, startCompress, if_pos hempty]
    exact endsWith_raise .emptyInput s
  · exact ⟨_, step_compress_start hturn hne, rfl, chooseLevel_eq_one_iff s.inLen, fun _ => rfl⟩

/-- Settles O19: the plan of a token turn is the decoded token. -/
theorem stepRunsTheDecodedToken : Obligations.StepRunsTheDecodedToken := by
  intro s i rest hturn hdec
  rw [step_token hturn, tokenPlan, hdec]
  rfl

/-- Settles O20: the start of DECOMPRESS looks at the tag of byte 0 once IN is not empty. -/
theorem stepRunsTheReservedTag : Obligations.StepRunsTheReservedTag := by
  intro s i hturn hne htag
  rw [step_startDecompress hturn, startDecompressPlan, if_neg (Nat.ne_of_gt hne), htag]
  rfl

/-- Settles O25: at the end of IN the command succeeds, and OUT is as it was. -/
theorem decompressEndsAtTheEndOfIn : Obligations.DecompressEndsAtTheEndOfIn := by
  intro s hturn hip
  refine ⟨succeed s, step_decompress_end hturn hip, rfl, rfl, ?_⟩
  rw [result?_of_ok rfl rfl, outBytes_eq_bytesAt]
  rfl

end Sys2Proof.Proofs

/-! ## What the tokens of a stream stand for (41_literal.md R133, 42_level1.md R157, 44_dispatcher.md R210) -/

namespace Sys2Proof.Machine

open Sys2Proof.Safety

section BytesAt

variable {f g : Nat → Byte}

theorem bytesAt_length (f : Nat → Byte) (p n : Nat) : (bytesAt f p n).length = n := by
  rw [bytesAt, List.length_map, List.length_range']

theorem bytesAt_add (f : Nat → Byte) (p m n : Nat) : bytesAt f p (m + n) = bytesAt f p m ++ bytesAt f (p + m) n := by
  rw [bytesAt, ← List.range'_append_1, List.map_append]
  rfl

theorem bytesAt_congr {p n : Nat} (h : ∀ a, p ≤ a → a < p + n → f a = g a) : bytesAt f p n = bytesAt g p n :=
  List.map_congr_left fun a ha => h a (List.mem_range'_1.1 ha).1 (List.mem_range'_1.1 ha).2

theorem bytesAt_getElem (f : Nat → Byte) (p n k : Nat) (h : k < (bytesAt f p n).length) :
    (bytesAt f p n)[k] = f (p + k) := by
  simp [bytesAt]

/-- Bytes that stand at `p` on are read there one by one. -/
theorem eq_bytesAt_of_getElem {data : List Byte} {p : Nat} (h : ∀ k : Fin data.length, f (p + k) = data[k]) :
    bytesAt f p data.length = data :=
  List.ext_getElem (bytesAt_length f p _) fun k _ hk => (bytesAt_getElem f p _ k _).trans (h ⟨k, hk⟩)

theorem inBytes_eq_bytesAt (s : State) (a n : Nat) : inBytes s a n = bytesAt (readIn s) a n := by
  induction n generalizing a with
  | zero => rfl
  | succ n ih => rw [inBytes, ih, bytesAt, bytesAt, List.range'_succ, List.map_cons]

end BytesAt

/-- At position `p` of the bytes `f` the token stands for `n` of them: a literal holds them, and a match finds them
`distance` bytes before. -/
inductive StandsFor (f : Nat → Byte) (p : Nat) : Instr → Nat → Prop where
  | first (tag : BitVec 3) (data : List Byte) (h : data = bytesAt f p data.length) :
    StandsFor f p (.lit0 tag data) data.length
  | literal (data : List Byte) (h : data = bytesAt f p data.length) : StandsFor f p (.lit data) data.length
  | copy (i : Instr) (distance L : Nat) (hops : operandsOf i = some (distance, L)) (hback : distance ≤ p)
    (h : ∀ k < L, f (p - distance + k) = f (p + k)) : StandsFor f p i L

/-- The tokens, the first of them read under `ctx`, stand for the bytes of `f` from `p` to `q`. -/
inductive Spells (f : Nat → Byte) : Context → Nat → List Instr → Nat → Prop where
  | nil (ctx : Context) (p : Nat) : Spells f ctx p [] p
  | cons {ctx : Context} {p n q : Nat} {i : Instr} {is : List Instr} (hwf : i.wellFormed = true)
    (hlegal : legalIn ctx i = true) (hstands : StandsFor f p i n) (hrest : Spells f ⟨false, ctx.level⟩ (p + n) is q) :
    Spells f ctx p (i :: is) q

/-- The bytes of a list of tokens. -/
def bytesOf (is : List Instr) : List Byte := (is.map encode).flatten

theorem bytesOf_cons (i : Instr) (is : List Instr) : bytesOf (i :: is) = encode i ++ bytesOf is := rfl

theorem bytesOf_append (is js : List Instr) : bytesOf (is ++ js) = bytesOf is ++ bytesOf js := by
  simp [bytesOf]

section Spells

variable {f : Nat → Byte} {ctx : Context} {level : Level} {p q r : Nat} {is js : List Instr}

theorem Spells.le (h : Spells f ctx p is q) : p ≤ q := by
  induction h with
  | nil ctx p => exact Nat.le_refl p
  | cons _ _ _ _ ih => exact Nat.le_of_add_right_le ih

theorem Spells.append (h : Spells f ctx p is q) (hfirst : ctx.first = false)
    (hnext : Spells f ⟨false, ctx.level⟩ q js r) : Spells f ctx p (is ++ js) r := by
  induction h with
  | nil ctx p =>
    obtain ⟨first, level⟩ := ctx
    obtain rfl : first = false := hfirst
    exact hnext
  | cons hwf hlegal hstands _ ih => exact .cons hwf hlegal hstands (ih rfl hnext)

/-- A match stands for bytes only after position 0, so the tokens of a stream begin with a literal
(44_dispatcher.md R203). -/
theorem Spells.begins_with_literal (h : Spells f ⟨false, level⟩ 0 is q) (hq : 1 ≤ q) :
    ∃ data rest, is = .lit data :: rest ∧ chunkOk data = true ∧ data = bytesAt f 0 data.length ∧
      Spells f ⟨false, level⟩ data.length rest q := by
  cases h with
  | nil => omega
  | cons hwf hlegal hstands hrest =>
    cases hstands with
    | first tag data h => cases hlegal
    | literal data h => exact ⟨data, _, rfl, hwf, h, by simpa using hrest⟩
    | copy i distance L hops hback h => exact absurd (distance_pos_of_operandsOf hops) (by omega)

/-- The chunks of a run stand for the run. -/
theorem spells_chunks {chunks : List (List Byte)} (hlen : ∀ c ∈ chunks, 1 ≤ c.length ∧ c.length ≤ 32)
    (h : chunks.flatten = bytesAt f p chunks.flatten.length) :
    Spells f ⟨false, level⟩ p (chunks.map .lit) (p + chunks.flatten.length) := by
  induction chunks generalizing p with
  | nil => exact .nil _ p
  | cons c cs ih =>
    rw [List.flatten_cons, List.length_append, bytesAt_add] at h
    obtain ⟨hc, hcs⟩ := List.append_inj h (bytesAt_length f p _).symm
    rw [List.forall_mem_cons] at hlen
    rw [List.flatten_cons, List.length_append, ← Nat.add_assoc]
    exact .cons (chunkOk_iff.2 hlen.1) rfl (.literal c hc) (ih hlen.2 hcs)

/-- Matches of one distance, one after the other, stand for the bytes that repeat at that distance. -/
theorem spells_copies {distance : Nat} {token : Nat → Instr} {lengths : List Nat}
    (hcarries : ∀ n ∈ lengths, Carries level (token n) distance n) (hback : distance ≤ p)
    (h : ∀ k < lengths.sum, f (p - distance + k) = f (p + k)) :
    Spells f ⟨false, level⟩ p (lengths.map token) (p + lengths.sum) := by
  induction lengths generalizing p with
  | nil => exact .nil _ p
  | cons n ns ih =>
    rw [List.forall_mem_cons] at hcarries
    obtain ⟨hwf, hlegal, hops⟩ := hcarries.1
    rw [List.sum_cons] at h ⊢
    rw [← Nat.add_assoc]
    refine .cons hwf hlegal (.copy _ distance n hops hback fun k hk => h k (by omega))
      (ih hcarries.2 (by omega) fun k hk => ?_)
    rw [show p + n - distance + k = p - distance + (n + k) by omega, Nat.add_assoc]
    exact h (n + k) (by omega)

end Spells

/-! ## COMPRESS emits tokens that stand for its input (40_match_finder.md R110, R112, R114) -/

theorem literalBytes_pendingRun_spelled (s : State) (level : Level) {b : Nat} (h : s.anchor ≤ b) :
    ∃ is, literalBytes (pendingRun s b) = bytesOf is ∧ Spells (readIn s) ⟨false, level⟩ s.anchor is b := by
  have hflat := literalChunks_flatten (pendingRun s b)
  have hlen : (literalChunks (pendingRun s b)).flatten.length = b - s.anchor := by rw [hflat, pendingRun_length]
  have hspells := spells_chunks (f := readIn s) (level := level) (p := s.anchor)
    (literalChunks_length_bounds (pendingRun s b)) (by rw [hlen, hflat, pendingRun, inBytes_eq_bytesAt])
  rw [hlen, Nat.add_sub_cancel' h] at hspells
  refine ⟨_, ?_, hspells⟩
  rw [literalBytes, chunksOf_eq_encode_chunks (Nat.le_refl _), bytesOf, List.map_map]
  rfl

/-- The tokens of a match that FIND reports stand for the bytes they are said to cover (42_level1.md R154). -/
theorem matchTokens_spelled {s : State} {p distance L : Nat} (h : Reported s p distance L) (h4 : 4 ≤ L) :
    ∃ is, (matchTokens s.level distance L).1 = bytesOf is ∧
      Spells (readIn s) ⟨false, s.level⟩ p is (p + (matchTokens s.level distance L).2) := by
  obtain ⟨hpos, hback, hagrees, hone, htwo⟩ := h
  cases hl : s.level with
  | one =>
    have hdist := hone hl
    have hcovered := (coveredM1_bounds h4).2
    refine ⟨(splitLengths L).map (m1Token distance), ?_, ?_⟩
    · rw [bytesOf, ← assembleM1Star_eq h4 hpos (by omega)]
      exact emitM1_eq_encode hpos (by omega) h4
    · show Spells (readIn s) ⟨false, .one⟩ p _ (p + coveredM1 L)
      rw [← splitLengths_sum] at hcovered ⊢
      refine spells_copies (fun n hn => ?_) hback fun k hk => hagrees k (by omega)
      obtain ⟨hn4, hn265⟩ := splitLengths_bounds h4 hn
      exact m1Token_carries hn4 hn265 hpos (by omega)
  | two =>
    have hdist := (htwo hl).1
    refine ⟨[m2Token distance L], ?_, ?_⟩
    · rw [bytesOf, List.map_singleton, List.flatten_singleton, encode_m2Token]
      rfl
    · exact .cons (m2Token_carries h4 hpos (by omega)).wellFormed (m2Token_carries h4 hpos (by omega)).legal
        (.copy _ distance L (m2Token_carries h4 hpos (by omega)).operands hback hagrees) (.nil _ _)

/-- OUT below OP holds tokens that stand for IN below ANCHOR (10_state.md R23, R24). -/
def Emitted (s : State) : Prop :=
  ∃ is, bytesAt (readOut s) 0 s.op = bytesOf is ∧ Spells (readIn s) ⟨false, s.level⟩ 0 is s.anchor

theorem bytesAt_emitBytes (bs : List Byte) (s : State) :
    bytesAt (readOut (emitBytes bs s)) 0 (s.op + bs.length) = bytesAt (readOut s) 0 s.op ++ bs := by
  obtain ⟨⟨_, houtside⟩, hinside⟩ := writesChunk_emitBytes bs s
  rw [bytesAt_add, Nat.zero_add, eq_bytesAt_of_getElem hinside]
  exact congrArg (· ++ bs) (bytesAt_congr fun a _ ha => houtside a (.inl (by omega)))

theorem emitted_matchEmitted {s : State} {distance L : Nat} (h : Emitted s) (hanchor : s.anchor ≤ s.ip)
    (hf : (find s s.ip).1 = .matched distance L) : Emitted (matchEmitted s distance L) := by
  obtain ⟨is, hout, hspells⟩ := h
  obtain ⟨run, hrun, hrunSpells⟩ := literalBytes_pendingRun_spelled s s.level hanchor
  obtain ⟨tokens, htokens, htokensSpell⟩ := matchTokens_spelled (find_reported hf) (find_bounds hf).2.1
  refine ⟨is ++ (run ++ tokens), ?_, hspells.append rfl (hrunSpells.append rfl htokensSpell)⟩
  rw [bytesOf_append, bytesOf_append, ← hrun, ← htokens, ← hout]
  exact bytesAt_emitBytes _ _

/-! The end of COMPRESS: the level tag in byte 0 (44_dispatcher.md R202) -/

/-- The tag number of a level (30_encoding.md R71). -/
def tagOf : Level → BitVec 3
  | .one => 0#3
  | .two => 1#3

theorem levelOfTag_tagOf (level : Level) : levelOfTag (tagOf level) = level := by cases level <;> rfl

theorem controlByte_or_tagBits (level : Level) (low : BitVec 5) :
    controlByte 0#3 low ||| tagBits level = controlByte (tagOf level) low := by
  cases level <;> revert low <;> decide

/-- Byte 0 with the tag is the control byte of LIT0 (30_encoding.md R74). -/
theorem wellFormed_lit0_tagOf {data : List Byte} (level : Level) (h : chunkOk data = true) :
    (Instr.lit0 (tagOf level) data).wellFormed = true := by
  have htag : (tagOf level).toNat ≤ 1 := by cases level <;> decide
  simp [Instr.wellFormed, htag, h]

/-- A stream of DECOMPRESS that stands for the first `n` bytes of `f`: LIT0 with the tag of the stream's level, and then
tokens of that level. -/
def StreamOf (f : Nat → Byte) (n : Nat) (stream : List Byte) : Prop :=
  ∃ tag data is, stream = bytesOf (.lit0 tag data :: is) ∧
    Spells f ⟨true, levelOfTag tag⟩ 0 (.lit0 tag data :: is) n

theorem streamOf_of_spells {f : Nat → Byte} {level : Level} {is : List Instr} {n : Nat}
    (h : Spells f ⟨false, level⟩ 0 is n) (hn : 1 ≤ n) :
    ∃ c bs, bytesOf is = c :: bs ∧ StreamOf f n ((c ||| tagBits level) :: bs) := by
  obtain ⟨data, rest, rfl, hchunk, hdata, hrest⟩ := h.begins_with_literal hn
  refine ⟨_, _, rfl, tagOf level, data, rest, ?_, ?_⟩
  · rw [controlByte_or_tagBits]
    rfl
  · rw [levelOfTag_tagOf]
    exact .cons (wellFormed_lit0_tagOf level hchunk) rfl (.first _ data hdata) ((Nat.zero_add _).symm ▸ hrest)

theorem bytesAt_writeOut_head {s : State} {n : Nat} {c : Byte} {bs : List Byte} (h : bytesAt (readOut s) 0 n = c :: bs)
    (b : Byte) : bytesAt (readOut (writeOut s 0 (readOut s 0 ||| b))) 0 n = (c ||| b) :: bs := by
  cases n with
  | zero => cases h
  | succ n =>
    rw [bytesAt, List.range'_succ, List.map_cons] at h ⊢
    obtain ⟨rfl, rfl⟩ := List.cons.inj h
    rw [readOut_writeOut, if_pos rfl]
    refine congrArg (_ :: ·) (List.map_congr_left fun a ha => ?_)
    rw [readOut_writeOut, if_neg (Nat.ne_of_gt (List.mem_range'_1.1 ha).1)]

/-- The result of COMPRESS is a stream that stands for its input. -/
theorem finished_streamOf {s : State} (h : Emitted s) (hanchor : s.anchor ≤ s.inLen) (hne : 1 ≤ s.inLen) :
    ∃ stream, result? (finished s) = some stream ∧ StreamOf (readIn s) s.inLen stream := by
  obtain ⟨is, hout, hspells⟩ := h
  obtain ⟨run, hrun, hrunSpells⟩ := literalBytes_pendingRun_spelled s s.level hanchor
  obtain ⟨c, bs, hbytes, hstream⟩ := streamOf_of_spells (hspells.append rfl hrunSpells) hne
  refine ⟨_, (result?_of_ok rfl rfl).trans (congrArg some ?_), hstream⟩
  rw [bytesOf_append, ← hrun, ← hout, ← bytesAt_emitBytes] at hbytes
  exact bytesAt_writeOut_head hbytes _

/-! The steps of COMPRESS from its start to its end -/

/-- A move of a core that is BUSY. -/
def CoreMoves (s t : State) : Prop := s.phase = .busy ∧ coreStep s = .next t

/-- Some moves of a BUSY core. -/
abbrev CoreReaches : State → State → Prop := Relation.ReflTransGen CoreMoves

theorem readIn_of_hostSide {s t : State} (h : hostSide t = hostSide s) : readIn t = readIn s ∧ t.inLen = s.inLen := by
  simp only [hostSide, Prod.mk.injEq] at h
  obtain ⟨hmem, hfill, hlen, _⟩ := h
  exact ⟨funext fun i => by rw [readIn, readIn, hmem, hfill], hlen⟩

/-- COMPRESS between two of its steps, with tokens in OUT that stand for what they cover. -/
structure Compressing (s : State) : Prop where
  phase : s.phase = .busy
  cmd : s.cmd = .compress
  seq : s.seq = .body
  inv : CompressInv s
  emitted : Emitted s

/-- A scan position leads on, with OUT still a list of tokens (40_match_finder.md R112). -/
theorem Compressing.scan {s : State} (h : Compressing s) (hip : s.ip + 4 ≤ s.inLen) :
    ∃ t, CoreMoves s t ∧ Compressing t ∧ s.ip < t.ip := by
  have hstep : coreStep s = scanStep s := (coreStep_compress_body h.phase h.cmd h.seq).trans (if_pos hip)
  rcases scanStep_cases s with hs | ⟨distance, L, hf, hs⟩
  · exact ⟨_, ⟨h.phase, hstep.trans hs⟩, ⟨h.phase, h.cmd, h.seq, h.inv.advance (by omega) _, h.emitted⟩,
      Nat.lt_succ_self _⟩
  · have hinv := h.inv.matchEmitted hf
    have hnext := hs.trans (withinOut_next hinv.op_le_outCap)
    exact ⟨_, ⟨h.phase, hstep.trans hnext⟩,
      ⟨h.phase, h.cmd, h.seq, hinv, emitted_matchEmitted h.emitted h.inv.anchorLe hf⟩, (scanStep_progress hnext).1⟩

/-- The last step of COMPRESS leaves a stream (40_match_finder.md R114). -/
theorem Compressing.finish {s : State} (h : Compressing s) (hip : ¬ s.ip + 4 ≤ s.inLen) :
    ∃ t stream, CoreMoves s t ∧ result? t = some stream ∧ StreamOf (readIn s) s.inLen stream := by
  have hstep : coreStep s = finishCompress s := (coreStep_compress_body h.phase h.cmd h.seq).trans (if_neg hip)
  have hrun := literalBytes_pendingRun_length_le s s.inLen
  have hanchor := h.inv.anchorLe.trans h.inv.ipLe
  have hop := h.inv.opLe
  have hroom := h.inv.room
  have hwithin : finishCompress s = .next (finished s) := withinOut_next (show s.op + _ ≤ s.outCap by omega)
  obtain ⟨stream, hresult, hstream⟩ := finished_streamOf h.emitted hanchor h.inv.nonempty
  exact ⟨_, stream, ⟨h.phase, hstep.trans hwithin⟩, hresult, hstream⟩

/-- The scan reaches the end of COMPRESS: `n` bounds the scan positions still to come (40_match_finder.md R115). -/
theorem Compressing.reaches_stream {s : State} (h : Compressing s) {n : Nat} (hn : s.inLen - 3 ≤ s.ip + n) :
    ∃ t stream, CoreReaches s t ∧ result? t = some stream ∧ StreamOf (readIn s) s.inLen stream := by
  induction n generalizing s with
  | zero =>
    obtain ⟨t, stream, hmove, hresult⟩ := h.finish (by omega)
    exact ⟨t, stream, .single hmove, hresult⟩
  | succ n ih =>
    by_cases hip : s.ip + 4 ≤ s.inLen
    · obtain ⟨u, hmove, hu, hlt⟩ := h.scan hip
      obtain ⟨hin, hlen⟩ := readIn_of_hostSide (coreStep_hostSide hmove.2)
      obtain ⟨t, stream, hreach, hresult, hstream⟩ := ih hu (by omega)
      exact ⟨t, stream, .head hmove hreach, hresult, hin ▸ hlen ▸ hstream⟩
    · obtain ⟨t, stream, hmove, hresult⟩ := h.finish hip
      exact ⟨t, stream, .single hmove, hresult⟩

/-- The state after the start block of COMPRESS (44_dispatcher.md R200). -/
def compressStarted (s : State) : State :=
  { s with
    level := chooseLevel s.inLen, ht := [], ip := 0, op := 0, anchor := 0
    first := Config.freeFirst s.draws, draws := s.draws + 1, seq := .body }

theorem startCompress_of_nonempty {s : State} (h : 1 ≤ s.inLen) : startCompress s = .next (compressStarted s) :=
  if_neg (Nat.ne_of_gt h)

theorem compressInv_compressStarted {s : State} (hne : 1 ≤ s.inLen) (hroom : 2 * s.inLen ≤ s.outCap) :
    CompressInv (compressStarted s) where
  nonempty := hne
  room := hroom
  levelChosen := rfl
  anchorLe := Nat.le_refl _
  ipLe := Nat.zero_le _
  opLe := Nat.zero_le _
  opPos := id
  written _ h := absurd h (Nat.not_lt_zero _)
  firstLiteral h := absurd h (Nat.not_succ_le_zero _)
  slots _ := .inl rfl

/-- COMPRESS of an input that is not empty ends with a stream that stands for it. -/
theorem compress_reaches_stream {s : State} (hp : s.phase = .busy) (hc : s.cmd = .compress) (hq : s.seq = .start)
    (hne : 1 ≤ s.inLen) (hroom : 2 * s.inLen ≤ s.outCap) :
    ∃ t stream, CoreReaches s t ∧ result? t = some stream ∧ StreamOf (readIn s) s.inLen stream := by
  have hstep : coreStep s = .next (compressStarted s) :=
    (coreStep_compress_start hp hc hq).trans (startCompress_of_nonempty hne)
  have hstarted : Compressing (compressStarted s) :=
    ⟨hp, hc, rfl, compressInv_compressStarted hne hroom, [], rfl, .nil _ 0⟩
  obtain ⟨t, stream, hreach, hresult⟩ := hstarted.reaches_stream (Nat.le_add_left _ _)
  exact ⟨t, stream, .head ⟨hp, hstep⟩ hreach, hresult⟩

end Sys2Proof.Machine

/-! ## DECOMPRESS writes what the tokens stand for (41_literal.md R133, 42_level1.md R157, 44_dispatcher.md R206) -/

namespace Sys2Proof.Machine

open Sys2Proof.Safety

/-- The encoded token has the length R87 gives its kind. -/
theorem encode_length (i : Instr) : (encode i).length = tokenSize i := by
  cases i with
  | lit0 tag data => exact (Laws.TokenLength.lit0 tag data).1
  | lit data => exact (Laws.TokenLength.lit data).1
  | m2nl dh conts last dl => exact (Laws.TokenLength.m2nl dh conts last dl).1
  | m2fl conts last fh fl => exact (Laws.TokenLength.m2fl conts last fh fl).1
  | _ => rfl

theorem tokenSize_pos (i : Instr) : 1 ≤ tokenSize i := by
  cases i <;> simp only [tokenSize] <;> omega

section Restores

variable {f : Nat → Byte} {s t : State} {i : Instr} {n : Nat}

/-- A token completes, and OUT reads as `f` below the new OP. -/
structure Restores (f : Nat → Byte) (i : Instr) (n : Nat) (s t : State) : Prop where
  frame : TokenFrame s t
  first : t.first = s.first ∨ t.first = false
  ip : t.ip = s.ip + tokenSize i
  op : t.op = s.op + n
  out : ∀ a < t.op, readOut t a = f a

/-- A chunk of the bytes of `f` goes on where OUT reads as `f`. -/
theorem readOut_of_writesChunk {data : List Byte} (h : WritesChunk s t data) (hdata : data = bytesAt f s.op data.length)
    (hold : ∀ a < s.op, readOut s a = f a) : ∀ a < t.op, readOut t a = f a := by
  obtain ⟨⟨hop, houtside⟩, hinside⟩ := h
  intro a ha
  by_cases hlt : a < s.op
  · rw [houtside a (.inl hlt), hold a hlt]
  · obtain ⟨k, rfl⟩ := Nat.exists_eq_add_of_le (Nat.not_lt.1 hlt)
    have hk : k < data.length := by omega
    have hbyte : data[k] = f (s.op + k) := (List.getElem_of_eq hdata hk).trans (bytesAt_getElem f _ _ k _)
    exact (hinside ⟨k, hk⟩).trans hbyte

/-- A copy goes on where OUT reads as `f`, and `f` repeats at the distance: byte by byte, each from one before it. -/
theorem readOut_eq_of_copiesBack {distance L : Nat} (h : CopiesBack s t distance L) (hpos : 1 ≤ distance)
    (hback : distance ≤ s.op) (hrepeats : ∀ k < L, f (s.op - distance + k) = f (s.op + k))
    (hold : ∀ a < s.op, readOut s a = f a) : ∀ a < t.op, readOut t a = f a := by
  obtain ⟨⟨hop, houtside⟩, hcopy⟩ := h
  intro a
  induction a using Nat.strong_induction_on with
  | _ a ih =>
    intro ha
    by_cases hlt : a < s.op
    · rw [houtside a (.inl hlt), hold a hlt]
    · obtain ⟨k, rfl⟩ := Nat.exists_eq_add_of_le (Nat.not_lt.1 hlt)
      rw [hcopy k (by omega), ih (s.op + k - distance) (by omega) (by omega), Nat.sub_add_comm hback]
      exact hrepeats k (by omega)

/-- A token that stands for the bytes of `f` at OP writes them (44_dispatcher.md R210). -/
theorem exec_restores (h : StandsFor f s.op i n) (hin : s.ip + tokenSize i ≤ s.inLen) (hout : s.op + n ≤ s.outCap)
    (hold : ∀ a < s.op, readOut s a = f a) : ∃ t, exec i s = .next t ∧ Restores f i n s t := by
  cases h with
  | first tag data hdata =>
    rw [tokenSize, ← Nat.add_assoc] at hin
    obtain ⟨t, ht, hframe, hfirst, hip, hchunk⟩ := (exec_lit0_outcome tag data (by omega)).complete hin hout
    exact ⟨t, ht, hframe, .inr hfirst, hip.trans (Nat.add_assoc _ _ _), hchunk.1.1,
      readOut_of_writesChunk hchunk hdata hold⟩
  | literal data hdata =>
    rw [tokenSize, ← Nat.add_assoc] at hin
    obtain ⟨t, ht, hframe, hfirst, hip, hchunk⟩ := (exec_lit_outcome data s).complete hin hout
    exact ⟨t, ht, hframe, .inl hfirst, hip.trans (Nat.add_assoc _ _ _), hchunk.1.1,
      readOut_of_writesChunk hchunk hdata hold⟩
  | copy i distance L hops hback hrepeats =>
    have hpos := distance_pos_of_operandsOf hops
    obtain ⟨dist, rfl⟩ := Nat.exists_eq_add_of_le' hpos
    obtain ⟨_, _, _, hcomplete⟩ := exec_match_outcome hops s
    obtain ⟨t, ht, hframe, hfirst, hip, hcopies⟩ := hcomplete hin hback hout
    exact ⟨t, ht, hframe, .inl hfirst, hip, hcopies.1.1,
      readOut_eq_of_copiesBack hcopies hpos hback hrepeats hold⟩

end Restores

/-- Once the bytes at the head of what is left of IN have been read, the others are left. -/
theorem tokenWindow_after {s t : State} {bs rest : List Byte} (h : tokenWindow s = bs ++ rest)
    (hframe : TokenFrame s t) (hip : t.ip = s.ip + bs.length) : tokenWindow t = rest := by
  have hlen := congrArg List.length h
  rw [tokenWindow_length, List.length_append] at hlen
  have hinLen : t.inLen = s.inLen := by rw [hframe]
  have hread : readIn t = readIn s := by rw [hframe]; rfl
  rw [tokenWindow, hlen, inBytes_append] at h
  rw [tokenWindow, hip, hinLen, show s.inLen - (s.ip + bs.length) = rest.length by omega, inBytes_eq_bytesAt, hread,
    ← inBytes_eq_bytesAt]
  exact (List.append_inj h (inBytes_length s _ _)).2

/-- DECOMPRESS between two tokens: the bytes left of IN are those of `is`, which stand for what is left of `f`, and OUT
holds `f` up to OP. -/
structure Decompressing (f : Nat → Byte) (n : Nat) (is : List Instr) (s : State) : Prop where
  phase : s.phase = .busy
  cmd : s.cmd = .decompress
  seq : s.seq = .body
  room : n ≤ s.outCap
  window : tokenWindow s = bytesOf is
  spells : Spells f (tokenContext s) s.op is n
  out : ∀ a < s.op, readOut s a = f a

section Decompressing

variable {f : Nat → Byte} {n : Nat} {s : State} {i : Instr} {is : List Instr}

/-- The next token is decoded, run, and leaves the tokens after it. -/
theorem Decompressing.token (h : Decompressing f n (i :: is) s) : ∃ t, CoreMoves s t ∧ Decompressing f n is t := by
  obtain ⟨hp, hc, hq, hroom, hwindow, hspells, hout⟩ := h
  cases hspells with
  | cons hwf hlegal hstands hrest =>
    have hle := hrest.le
    rw [bytesOf_cons] at hwindow
    have hlen := congrArg List.length hwindow
    rw [tokenWindow_length, List.length_append, encode_length] at hlen
    have hsize := tokenSize_pos i
    have hdec : decode (tokenContext s) (tokenWindow s) = .ok (i, bytesOf is) := by
      rw [hwindow]
      exact decode_encode hwf hlegal
    obtain ⟨t, ht, hframe, hfirst, hip, hop, hout⟩ := exec_restores hstands (by omega) (by omega) hout
    have hphase : t.phase = .busy := by rw [hframe]; exact hp
    have hclear := decodedToken_clears_first (by omega) hdec ht (by rw [hphase]; nofun) hfirst
    have hstep : coreStep s = .next t := by
      rw [coreStep_decompress_body hp hc hq, if_pos (by omega), tokenPlan, hdec]
      exact ht
    refine ⟨t, ⟨hp, hstep⟩, hphase, ?_, ?_, ?_, ?_, ?_, hout⟩
    · rw [hframe]; exact hc
    · rw [hframe]; exact hq
    · rw [hframe]; exact hroom
    · exact tokenWindow_after hwindow hframe (by rw [hip, encode_length])
    · have hlevel : t.level = s.level := by rw [hframe]
      rw [tokenContext, hclear, hlevel, hop]
      exact hrest

/-- The tokens reach the end of IN, and the command succeeds (44_dispatcher.md R207). -/
theorem Decompressing.reaches_bytes (h : Decompressing f n is s) :
    ∃ t, CoreReaches s t ∧ result? t = some (bytesAt f 0 n) := by
  induction is generalizing s with
  | nil =>
    obtain ⟨hp, hc, hq, _, hwindow, hspells, hout⟩ := h
    have hend : s.inLen - s.ip = 0 := by rw [← tokenWindow_length, hwindow]; rfl
    have hstep : coreStep s = .next (succeed s) := by
      rw [coreStep_decompress_body hp hc hq, if_neg (by omega)]
    cases hspells with
    | nil =>
      refine ⟨succeed s, .single ⟨hp, hstep⟩, (result?_of_ok rfl rfl).trans (congrArg some ?_)⟩
      exact bytesAt_congr fun a _ ha => hout a (by simpa using ha)
  | cons i is ih =>
    obtain ⟨u, hmove, hu⟩ := h.token
    obtain ⟨t, hreach, hresult⟩ := ih hu
    exact ⟨t, .head hmove hreach, hresult⟩

/-- DECOMPRESS of a stream, from its start, gives the bytes the stream stands for (44_dispatcher.md R205, R210). -/
theorem decompress_reaches_bytes (hp : s.phase = .busy) (hc : s.cmd = .decompress) (hq : s.seq = .start)
    (hstream : StreamOf f n (bytesAt (readIn s) 0 s.inLen)) (hroom : n ≤ s.outCap) :
    ∃ t, CoreReaches s t ∧ result? t = some (bytesAt f 0 n) := by
  obtain ⟨tag, data, is, hbytes, hspells⟩ := hstream
  have hcount : s.inLen = (bytesOf is).length + data.length + 1 := by
    have hlen := congrArg List.length hbytes
    rw [bytesAt_length, bytesOf_cons, List.length_append, encode_length, tokenSize] at hlen
    omega
  have hbyte0 : readIn s 0 = controlByte tag (countField data) := by
    rw [hcount] at hbytes
    exact (List.cons.inj hbytes).1
  have htag : tag.toNat ≤ 1 := by
    cases hspells with
    | cons hwf => exact of_decide_eq_true ((Bool.and_eq_true _ _).mp hwf).1
  have hhigh : highBits (readIn s 0) = tag := by rw [hbyte0, highBits_controlByte]
  have hreserved : reservedTag (readIn s 0) = none := reservedTag_eq_none_iff.2 (hhigh ▸ htag)
  have hstep : coreStep s = .next (startTokens s) := by
    rw [coreStep_decompress_start hp hc hq, startDecompressPlan, if_neg (by omega), hreserved]
    rfl
  have hwindow : tokenWindow (startTokens s) = bytesOf (.lit0 tag data :: is) :=
    (inBytes_eq_bytesAt (startTokens s) 0 s.inLen).trans hbytes
  have hcontext : tokenContext (startTokens s) = ⟨true, levelOfTag tag⟩ := by
    rw [tokenContext, startTokens_first, startTokens_level, hhigh]
  have hstarted : Decompressing f n (.lit0 tag data :: is) (startTokens s) :=
    ⟨hp, hc, rfl, hroom, hwindow, hcontext ▸ hspells, fun _ ha => absurd ha (Nat.not_lt_zero _)⟩
  obtain ⟨t, hreach, hresult⟩ := hstarted.reaches_bytes
  exact ⟨t, .head ⟨hp, hstep⟩ hreach, hresult⟩

end Decompressing

/-! ## A command as the host gives it (70_reset_and_hazards.md R254) -/

/-- Some steps of the machine. -/
abbrev Steps : State → State → Prop := Relation.ReflTransGen fun s t => step s = .next t

theorem exists_run_of_steps {s t : State} (h : Steps s t) : ∃ k, Host.Core.run Sys2Proof.core k s = .next t := by
  induction h using Relation.ReflTransGen.head_induction_on with
  | refl => exact ⟨0, rfl⟩
  | head hstep _ ih =>
    obtain ⟨k, hrun⟩ := ih
    exact ⟨k + 1, (run_succ hstep k).trans hrun⟩

/-- The host writes `input` into IN from index `a` on, byte by byte. -/
theorem steps_writeIn (input : List Byte) (a : Nat) {s : State} (hp : s.phase ≠ .busy) (rest : List HostOp) :
    Steps { s with host := (input.zipIdx a).map (fun e => HostOp.writeIn e.2 e.1) ++ rest }
      { s with inMem := Memory.writeAll s.inMem a input, host := rest } := by
  induction input generalizing a s with
  | nil => exact .refl
  | cons b bs ih =>
    exact .head (whenNotBusy_next _ hp) (ih (a + 1) (s := { s with inMem := Memory.write s.inMem a b }) hp)

/-- IN, IN_LEN and OUT_CAP as the host sets them for a command, which it then waits for. -/
def loaded (input : List Byte) (outCap : Nat) (s : State) : State :=
  { s with
    inMem := Memory.writeAll s.inMem 0 input, inLen := input.length, outCap := outCap, host := [.waitDone] }

theorem bytesAt_loaded (input : List Byte) (outCap : Nat) (s : State) :
    bytesAt (readIn (loaded input outCap s)) 0 input.length = input := by
  refine eq_bytesAt_of_getElem fun k => ?_
  rw [readIn, loaded, Memory.read_writeAll, if_pos (by omega)]
  simp

/-- The moves of the host before it waits: IN, then IN_LEN and OUT_CAP, then CMD. -/
theorem steps_commandMoves {cmd : Nat} {input : List Byte} {outCap : Nat} {s u : State} (hp : s.phase ≠ .busy)
    (hcmd : writeCommand cmd (loaded input outCap s) = .next u) :
    Steps { s with host := commandMoves cmd input outCap } u := by
  refine (steps_writeIn input 0 hp _).trans ?_
  exact .head (whenNotBusy_next _ hp) (.head (whenNotBusy_next _ hp) (.single hcmd))

/-- The core moves while the host waits, until the command is done. -/
theorem steps_waitDone {s t : State} (h : CoreReaches s t) (hhost : s.host = [.waitDone]) (hdone : t.phase = .done) :
    Steps s { t with host := [] } := by
  induction h using Relation.ReflTransGen.head_induction_on with
  | refl =>
    refine .single ?_
    rw [step_eq_perform, plan, hhost]
    simp only [hdone, if_true]
    rfl
  | @head s u hmove _ ih =>
    have hstep : step s = coreStep s := by
      rw [step_eq_perform, plan, hhost]
      simp [hmove.1, coreStep]
    have hkeep := coreStep_hostSide hmove.2
    simp only [hostSide, Prod.mk.injEq] at hkeep
    obtain ⟨_, _, _, _, _, _, _, hmoves⟩ := hkeep
    exact .head (hstep.trans hmove.2) (ih (hmoves.trans hhost))

theorem phase_of_result? {s : State} {bs : List Byte} (h : result? s = some bs) : s.phase = .done := by
  unfold result? statusDone at h
  split at h
  · next hdone => exact eq_of_beq ((Bool.and_eq_true _ _).mp hdone).1
  · cases h

theorem result?_withHost (s : State) (moves : List HostOp) : result? { s with host := moves } = result? s := by
  unfold result?
  rw [outBytes_eq_bytesAt, outBytes_eq_bytesAt]
  rfl

/-- A command that the core brings to a result is one the host sees done. -/
theorem commandReaches_of_result {cmd : Nat} {input bs : List Byte} {outCap : Nat} {c : Command} {s t : State}
    (hp : s.phase ≠ .busy) (hcmd : writeCommand cmd (loaded input outCap s) = .next (launch c (loaded input outCap s)))
    (hreach : CoreReaches (launch c (loaded input outCap s)) t) (hresult : result? t = some bs) :
    ∃ u, CommandReaches s cmd input outCap u ∧ result? u = some bs := by
  have hdone := phase_of_result? hresult
  obtain ⟨k, hrun⟩ := exists_run_of_steps ((steps_commandMoves hp hcmd).trans (steps_waitDone hreach rfl hdone))
  exact ⟨_, ⟨k, hrun, hdone, rfl⟩, (result?_withHost t []).trans hresult⟩

theorem writeCommand_compress {s : State} (hp : s.phase ≠ .busy) (hroom : 2 * s.inLen ≤ s.outCap) :
    writeCommand 1 s = .next (launch .compress s) := by
  rw [writeCommand, if_neg hp, if_pos rfl, if_neg (Nat.not_lt.2 hroom)]

theorem writeCommand_decompress {s : State} (hp : s.phase ≠ .busy) :
    writeCommand 2 s = .next (launch .decompress s) := by
  rw [writeCommand, if_neg hp, if_neg (by decide), if_pos rfl]

/-- The host's COMPRESS ends with a stream that stands for the input (44_dispatcher.md R210). -/
theorem compressCommand_streamOf {s : State} {input : List Byte} {outCap : Nat} (hp : s.phase ≠ .busy)
    (hne : input ≠ []) (hroom : 2 * input.length ≤ outCap) :
    ∃ f u stream, bytesAt f 0 input.length = input ∧ CommandReaches s 1 input outCap u ∧
      result? u = some stream ∧ StreamOf f input.length stream := by
  obtain ⟨t, stream, hreach, hresult, hstream⟩ := compress_reaches_stream
    (s := launch .compress (loaded input outCap s)) rfl rfl rfl (List.length_pos_of_ne_nil hne) hroom
  obtain ⟨u, hu, hresultu⟩ := commandReaches_of_result hp (writeCommand_compress hp hroom) hreach hresult
  exact ⟨_, u, stream, bytesAt_loaded input outCap s, hu, hresultu, hstream⟩

/-- The host's DECOMPRESS of a stream ends with the bytes it stands for (44_dispatcher.md R210). -/
theorem decompressCommand_bytes {s : State} {f : Nat → Byte} {n : Nat} {stream : List Byte} {outCap : Nat}
    (hp : s.phase ≠ .busy) (hstream : StreamOf f n stream) (hroom : n ≤ outCap) :
    ∃ u, CommandReaches s 2 stream outCap u ∧ result? u = some (bytesAt f 0 n) := by
  obtain ⟨t, hreach, hresult⟩ := decompress_reaches_bytes (f := f) (n := n)
    (s := launch .decompress (loaded stream outCap s)) rfl rfl rfl
    ((bytesAt_loaded stream outCap s).symm ▸ hstream) hroom
  exact commandReaches_of_result hp (writeCommand_decompress hp) hreach hresult

end Sys2Proof.Machine

/-! ## The statement about the two commands together -/

namespace Sys2Proof.Proofs

open Sys2Proof.Machine Sys2Proof.Safety

/-- Settles O60: COMPRESS keeps OUT a list of tokens that stand for IN below ANCHOR, and DECOMPRESS writes what tokens
stand for. -/
theorem compressThenDecompressGivesTheInput : Obligations.CompressThenDecompressGivesTheInput := by
  intro s input cap1 cap2 hp hne hroom1 hroom2
  obtain ⟨f, s1, stream, hinput, hreach1, hresult1, hstream⟩ := compressCommand_streamOf hp hne hroom1
  have hp1 : s1.phase ≠ .busy := by rw [phase_of_result? hresult1]; nofun
  obtain ⟨s2, hreach2, hresult2⟩ := decompressCommand_bytes hp1 hstream hroom2
  exact ⟨s1, s2, stream, hreach1, hresult1, hreach2, hinput ▸ hresult2⟩

end Sys2Proof.Proofs

/-! ## The errors: a missing byte, a reserved tag, a refused CMD write (60_exceptions.md R222 to R224, R235, R237) -/

namespace Sys2Proof.Machine

open Sys2Proof.Safety

/-- A token that does not decode for want of a byte is rejected (60_exceptions.md R222, R226). -/
theorem step_missingByte {s : State} {r : Reject} (hturn : TokenTurn s)
    (hdec : decode (tokenContext s) (tokenWindow s) = .error r) : step s = rejectToken r s := by
  rw [step_token hturn, tokenPlan, hdec]
  rfl

/-- The bytes read before the missing one are inside IN (20_memory.md R55). -/
theorem ip_add_used_le {s : State} {r : Reject} (hip : s.ip ≤ s.inLen)
    (hdec : decode (tokenContext s) (tokenWindow s) = .error r) : s.ip + r.used ≤ s.inLen := by
  have hused := decode_error_used_le hdec
  rw [tokenWindow_length] at hused
  omega

/-- A byte 0 from 40H on carries a reserved level tag (60_exceptions.md R223). -/
theorem exists_reservedTag {c : Byte} (h : 0x40 ≤ c.toNat) : ∃ i, reservedTag c = some i := by
  refine Option.ne_none_iff_exists'.1 fun hnone => ?_
  have htag := reservedTag_eq_none_iff.1 hnone
  rw [highBits_toNat] at htag
  omega

/-- LEVEL is the tag plus 1 (44_dispatcher.md R205). -/
theorem levelOfTag_number {tag : BitVec 3} (h : tag.toNat ≤ 1) : (levelOfTag tag).number = tag.toNat + 1 := by
  unfold levelOfTag
  split
  · next h0 => rw [h0]; rfl
  · next h0 =>
    have hpos : tag.toNat ≠ 0 := fun hz => h0 (BitVec.eq_of_toNat_eq hz)
    rw [Level.number]
    omega

/-- The start block of DECOMPRESS over no input (60_exceptions.md R221). -/
theorem step_decompress_empty {s : State} (hturn : CoreTurn s .decompress .start) (hempty : s.inLen = 0) :
    step s = raise .emptyInput s := by
  rw [step_startDecompress hturn, startDecompressPlan, if_pos hempty]
  rfl

/-- STATUS of a command that is done (10_state.md R35). -/
theorem statusWord_of_done {s : State} (h : s.phase = .done) : statusWord s = 4 + codeNumber s.code := by
  simp [statusWord, statusDone, h, Nat.add_comm]

/-! The CMD write -/

theorem step_writeCmd {s : State} {v : Nat} {rest : List HostOp} (h : s.host = .writeCmd v :: rest) :
    step s = writeCommand v { s with host := rest } := by
  rw [step_eq_perform, plan, h]
  rfl

theorem writeCommand_whileBusy {s : State} (v : Nat) (hp : s.phase = .busy) :
    writeCommand v s = .refused .commandWhileBusy := if_pos hp

theorem writeCommand_badValue {s : State} {v : Nat} (hp : s.phase ≠ .busy) (h1 : v ≠ 1) (h2 : v ≠ 2) :
    writeCommand v s = .refused .badCommand := by
  rw [writeCommand, if_neg hp, if_neg h1, if_neg h2]

theorem writeCommand_compress_noRoom {s : State} (hp : s.phase ≠ .busy) (hroom : s.outCap < 2 * s.inLen) :
    writeCommand 1 s = .refused .compressOutCapTooSmall := by
  rw [writeCommand, if_neg hp, if_pos rfl, if_pos hroom]

end Sys2Proof.Machine

/-! ## The statements about the errors -/

namespace Sys2Proof.Proofs

open Sys2Proof.Machine Sys2Proof.Safety

/-- Settles O22: the token is rejected with IP after the bytes that were there. -/
theorem missingByteIsCorruptStream : Obligations.MissingByteIsCorruptStream := by
  intro s r hturn hdec
  refine ⟨?_, ip_add_used_le (Nat.le_of_lt hturn.2) hdec⟩
  rw [step_missingByte hturn hdec]
  exact endsWith_raise .corruptStream (clearFirst { s with ip := s.ip + r.used })

/-- Settles O24: the two errors of the start block in their order, and then its state. -/
theorem decompressStartsByItsRule : Obligations.DecompressStartsByItsRule := by
  intro s hturn
  refine ⟨fun hempty => ?_, fun hne hreserved => ?_, fun hne hknown => ?_⟩
  · rw [step_decompress_empty hturn hempty]
    exact endsWith_raise .emptyInput s
  · obtain ⟨i, htag⟩ := exists_reservedTag hreserved
    rw [stepRunsTheReservedTag s i hturn hne htag, exec_reservedTag htag]
    exact endsWith_raise .unknownLevel s
  · have htag : (highBits (readIn s 0)).toNat ≤ 1 := reservedTag_eq_none_iff.1 (reservedTag_eq_none hknown)
    refine ⟨startTokens s, step_decompress_start hturn hne hknown, rfl, ?_⟩
    rw [startTokens_level, levelOfTag_number htag, highBits_toNat]

/-- Settles O16: either reserved tag raises UnknownLevel. -/
theorem reservedTagsEndWithUnknownLevel : Obligations.ReservedTagsEndWithUnknownLevel :=
  fun _ _ s => ⟨endsWith_raise .unknownLevel s, endsWith_raise .unknownLevel s⟩

/-- Settles O18: `raise` answers one state, DONE with the kind's code. -/
theorem raiseEndsTheCommand : Obligations.RaiseEndsTheCommand := by
  intro e s
  refine ⟨endsWith_raise e s, fun t ht => ?_⟩
  rw [raise_eq] at ht
  obtain rfl := Host.Outcome.next.inj ht
  refine ⟨rfl, ?_⟩
  rw [statusWord_of_done rfl]
  cases e <;> rfl

/-- Settles O47: the three refusals of the CMD write. -/
theorem cmdWritesRefused : Obligations.CmdWritesRefused := by
  intro s v rest hhost
  rw [step_writeCmd hhost]
  refine ⟨fun hp => ?_, fun hp h1 h2 => ?_, fun hp hv hroom => ?_⟩
  · exact writeCommand_whileBusy v hp
  · exact writeCommand_badValue hp h1 h2
  · rw [hv]
    exact writeCommand_compress_noRoom hp hroom

end Sys2Proof.Proofs

/-! ## The start of a command and the reset (70_reset_and_hazards.md R250, R251, R253) -/

namespace Sys2Proof.Machine

/-- STATUS.done is 0 from the CMD write on (10_state.md R37). -/
theorem statusDone_launch (c : Command) (s : State) : statusDone (launch c s) = false := rfl

/-- A host's reset resets the core, whatever it was doing (70_reset_and_hazards.md R253). -/
theorem step_reset {s : State} {rest : List HostOp} (h : s.host = .reset :: rest) :
    step s = .next (resetNow { s with host := rest }) := by
  rw [step_eq_perform, plan, h]
  rfl

/-- STATUS is 0 at reset (70_reset_and_hazards.md R250). -/
theorem statusWord_resetNow (s : State) : statusWord (resetNow s) = 0 := rfl

end Sys2Proof.Machine

/-! ## The statements about the start of a command and the reset -/

namespace Sys2Proof.Proofs

open Sys2Proof.Machine

/-- Settles O46: the write launches the command it names, and `launch` leaves every other field as it was. -/
theorem cmdWriteStartsTheCommand : Obligations.CmdWriteStartsTheCommand := by
  intro s v rest hp hhost hv
  rw [step_writeCmd hhost]
  rcases hv with rfl | ⟨rfl, hroom⟩
  · exact ⟨_, writeCommand_decompress hp, launch_phase _ _, statusDone_launch _ _, launch_seq _ _, launch_cmd _ _, rfl⟩
  · exact ⟨_, writeCommand_compress hp hroom, launch_phase _ _, statusDone_launch _ _, launch_seq _ _, launch_cmd _ _, rfl⟩

/-- Settles O50: the step answers the reset state, with the host's side of `s`. -/
theorem resetAbandonsTheCommand : Obligations.ResetAbandonsTheCommand := fun _ _ hhost =>
  ⟨_, step_reset hhost, rfl, rfl, rfl, statusWord_resetNow _, rfl, rfl, rfl, rfl, rfl⟩

end Sys2Proof.Proofs

/-! ## The host passes (10_state.md section 1; the host queue is the model's own) -/

namespace Sys2Proof.Machine

/-- A pass of the host is taken off the list and the core moves. -/
theorem step_pass {s : State} {rest : List HostOp} (h : s.host = .pass :: rest) :
    step s = coreStep { s with host := rest } := by
  rw [step_eq_perform, plan, h]
  rfl

end Sys2Proof.Machine

/-! ## The statement about the host's pass -/

namespace Sys2Proof.Proofs

open Sys2Proof.Machine

/-- Settles O21: the core's own move is its plan performed, a token run or an answer given. -/
theorem hostPassLetsTheCoreMove : Obligations.HostPassLetsTheCoreMove := by
  intro s rest
  rw [step_pass rfl, coreStep]
  cases corePlan { s with host := rest } with
  | run i t => rfl
  | answer a => rfl

end Sys2Proof.Proofs
